-- ==== Sys2Proof/Word.lean ====
section
/-! DEFINITION. The machine's word and byte (spec/00_scope.md rules R6 and R7). -/

namespace Sys2Proof

/-- A byte: an unsigned integer in 0 to 255 (rule R7). -/
abbrev Byte := BitVec 8

/-- A word: 16 bits, the width of a memory cell, a register, a stack entry and the
Program Counter (rules R6, R7 and spec/10_state.md rule R32). -/
abbrev Word := BitVec 16

end Sys2Proof
end

