-- ==== Sys2Proof/Config.lean ====
section
/-! DEFINITION. The parameters of the block (spec/00_scope.md rule R6). -/

namespace Sys2Proof

/-- `MEM_WORDS`: the number of words of the Address Space; valid word addresses lie below it. -/
def Config.memWords : Nat := 32768

/-- `MEM_BYTES`: the size of the packed byte image of the Address Space. -/
def Config.memBytes : Nat := 65536

/-- `NUM_REGS`: the number of registers. -/
def Config.numRegs : Nat := 8

/-- `REG_BASE`: the operand-slot value that names register 0, and the first that is no literal. -/
def Config.regBase : Nat := 32768

/-- `DATA_MODULUS`: the modulus of `add` and `mult`. -/
def Config.dataModulus : Nat := 32768

/-- `NUM_OPCODES`: opcodes are numbered from 0 up to this. -/
def Config.numOpcodes : Nat := 22

/-- Half of `FILL_WORD`: what a byte of the Address Space holds that neither the image nor a
write has set (decision D12; DESIGN CHOICE, unsafe, log entry 1). -/
def Config.fillByte : Byte := 0

/-- `ESCAPE_BYTE`: the byte of the interactive stream that opens a debug command. The spec leaves
its value open (rule R6, decision D14): a constant with no body, so nothing can rest on a value
of it (DESIGN CHOICE, safe, log entry 3). -/
opaque Config.escapeByte : Byte

end Sys2Proof
end

