-- ==== Sys2Proof/Syntax.lean ====
section
/-! DEFINITION. Instructions as syntax: one constructor per row of spec/opcode_table.json
(spec/30_encoding.md rules R80 to R85). -/

namespace Sys2Proof

/-- What an operand slot must hold: `reg`, a register reference; `val`, a literal or a register
reference (rule R84). -/
inductive SlotKind where
  | reg
  | val
deriving DecidableEq, Repr

/-- The content of an operand slot, as `Classify` tells it apart (rules R82 and R83), with one
more form for a slot that does not exist. -/
inductive Operand where
  /-- A word below 32768: a 15-bit literal. -/
  | lit (v : BitVec 15)
  /-- A word 32768 to 32775: a reference to register `r`. -/
  | reg (r : Fin 8)
  /-- A word of 32776 or more: no operand. Resolving it raises InvalidWord. -/
  | invalid (raw : Word)
  /-- The slot lies beyond the last word of the Address Space: resolving it raises OutOfBounds
  (spec/20_memory.md rule R55). -/
  | absent
deriving DecidableEq, Repr

/-- The 22 instructions (rule R85). Operands stand in the order `a`, `b`, `c`; the docstrings give
the opcode and the format. -/
inductive Instr where
  /-- 0, N -/
  | halt
  /-- 1, RV -/
  | set (a b : Operand)
  /-- 2, V -/
  | push (a : Operand)
  /-- 3, R -/
  | pop (a : Operand)
  /-- 4, RVV -/
  | eq (a b c : Operand)
  /-- 5, RVV -/
  | gt (a b c : Operand)
  /-- 6, V -/
  | jmp (a : Operand)
  /-- 7, VV -/
  | jt (a b : Operand)
  /-- 8, VV -/
  | jf (a b : Operand)
  /-- 9, RVV -/
  | add (a b c : Operand)
  /-- 10, RVV -/
  | mult (a b c : Operand)
  /-- 11, RVV -/
  | mod (a b c : Operand)
  /-- 12, RVV -/
  | and (a b c : Operand)
  /-- 13, RVV -/
  | or (a b c : Operand)
  /-- 14, RV -/
  | not (a b : Operand)
  /-- 15, RV -/
  | rmem (a b : Operand)
  /-- 16, VV -/
  | wmem (a b : Operand)
  /-- 17, V -/
  | call (a : Operand)
  /-- 18, N -/
  | ret
  /-- 19, V -/
  | out (a : Operand)
  /-- 20, R: the instruction the spec writes `in` (a word Lean keeps for itself). -/
  | in_ (a : Operand)
  /-- 21, N -/
  | noop
deriving DecidableEq, Repr

/-- The operand slots of an instruction in address order, each with the kind rule R84 gives it. -/
def Instr.slots : Instr → List (SlotKind × Operand)
  | .halt => []
  | .set a b => [(.reg, a), (.val, b)]
  | .push a => [(.val, a)]
  | .pop a => [(.reg, a)]
  | .eq a b c => [(.reg, a), (.val, b), (.val, c)]
  | .gt a b c => [(.reg, a), (.val, b), (.val, c)]
  | .jmp a => [(.val, a)]
  | .jt a b => [(.val, a), (.val, b)]
  | .jf a b => [(.val, a), (.val, b)]
  | .add a b c => [(.reg, a), (.val, b), (.val, c)]
  | .mult a b c => [(.reg, a), (.val, b), (.val, c)]
  | .mod a b c => [(.reg, a), (.val, b), (.val, c)]
  | .and a b c => [(.reg, a), (.val, b), (.val, c)]
  | .or a b c => [(.reg, a), (.val, b), (.val, c)]
  | .not a b => [(.reg, a), (.val, b)]
  | .rmem a b => [(.reg, a), (.val, b)]
  | .wmem a b => [(.val, a), (.val, b)]
  | .call a => [(.val, a)]
  | .ret => []
  | .out a => [(.val, a)]
  | .in_ a => [(.reg, a)]
  | .noop => []

/-- The length of an instruction in words: `1 + n`, fixed by the opcode alone (rules R80, R88). -/
def Instr.words (i : Instr) : Nat := 1 + i.slots.length

end Sys2Proof
end

