-- ==== Sys2Proof/WellFormed.lean ====
section
/-! DEFINITION. Which instructions are legal as syntax (spec/30_encoding.md rule R87): every operand
slot exists, none holds an invalid word, and a reg slot holds a register reference. -/

namespace Sys2Proof

/-- What a slot of a kind may hold (rules R87, R90 and R91). -/
def Operand.legal : SlotKind → Operand → Bool
  | .reg, .reg _ => true
  | .reg, .lit _ => false
  | .val, .lit _ => true
  | .val, .reg _ => true
  | _, .invalid _ => false
  | _, .absent => false

/-- A well-formed instruction: one that meets no operand fault (rule R87). -/
def Instr.wf (i : Instr) : Bool := i.slots.all fun s => s.2.legal s.1

/-- An operand that stands for a word or for nothing: an `invalid` operand carries a word that
is invalid (32776 or more, rule R82). Only such operands come out of a decoder. -/
def Operand.classified : Operand → Bool
  | .invalid raw => 32776 ≤ raw.toNat
  | _ => true

end Sys2Proof
end

