-- ==== Sys2Proof/Decode.lean ====
section
/-! DEFINITION. The decoder and the encoder (spec/30_encoding.md rules R80 to R86), over words, and
over bytes in the byte order of spec/20_memory.md rule R51. -/

namespace Sys2Proof

/-- `Classify` (rule R82): the form of an operand slot. Where the rule raises InvalidWord the answer
is the form `invalid`; what raises the fault is the resolution of the operand
(Sys2Proof.Machine.resolveReg and resolveVal), in the order of spec/40_execution_cycle.md rule R103. -/
def classify (raw : Word) : Operand :=
  if raw.toNat < Config.regBase then .lit (raw.setWidth 15)
  else if raw.toNat < Config.regBase + Config.numRegs then .reg (Fin.ofNat 8 (raw.toNat - Config.regBase))
  else .invalid raw

/-- The operand in slot number `k` (from 0) after the opcode word, given the words that follow it. -/
def slotAt (ws : List Word) (k : Nat) : Operand :=
  match ws[k]? with
  | some raw => classify raw
  | none => .absent

/-- Why no instruction was decoded. -/
inductive DecodeError where
  /-- There is no word at all. -/
  | noWord
  /-- The opcode word is 22 or more (rule R86). -/
  | unknownOpcode (op : Word)
deriving DecidableEq, Repr

/-- The opcode map (rule R85): the instruction of an opcode number, given its operands in address order,
of which it takes as many as it has. -/
def instrOf (op : Nat) (a b c : Operand) : Option Instr :=
  match op with
  | 0 => some .halt
  | 1 => some (.set a b)
  | 2 => some (.push a)
  | 3 => some (.pop a)
  | 4 => some (.eq a b c)
  | 5 => some (.gt a b c)
  | 6 => some (.jmp a)
  | 7 => some (.jt a b)
  | 8 => some (.jf a b)
  | 9 => some (.add a b c)
  | 10 => some (.mult a b c)
  | 11 => some (.mod a b c)
  | 12 => some (.and a b c)
  | 13 => some (.or a b c)
  | 14 => some (.not a b)
  | 15 => some (.rmem a b)
  | 16 => some (.wmem a b)
  | 17 => some (.call a)
  | 18 => some .ret
  | 19 => some (.out a)
  | 20 => some (.in_ a)
  | 21 => some .noop
  | _ => none

/-- The instruction in a list of words: the opcode word (all 16 bits of it, rule R81), then the slots
its opcode asks for (rules R84 and R85). Words beyond the instruction are not looked at. -/
def decode : List Word → Except DecodeError Instr
  | [] => .error .noWord
  | op :: ws =>
    match instrOf op.toNat (slotAt ws 0) (slotAt ws 1) (slotAt ws 2) with
    | some i => .ok i
    | none => .error (.unknownOpcode op)

/-- The word of an operand slot; a slot that does not exist has none. -/
def encodeSlot : Operand → List Word
  | .lit v => [v.setWidth 16]
  | .reg r => [BitVec.ofNat 16 (Config.regBase + r.val)]
  | .invalid raw => [raw]
  | .absent => []

/-- The words of an instruction (rules R80 and R85). -/
def encode : Instr → List Word
  | .halt => [0]
  | .set a b => 1 :: (encodeSlot a ++ encodeSlot b)
  | .push a => 2 :: encodeSlot a
  | .pop a => 3 :: encodeSlot a
  | .eq a b c => 4 :: (encodeSlot a ++ (encodeSlot b ++ encodeSlot c))
  | .gt a b c => 5 :: (encodeSlot a ++ (encodeSlot b ++ encodeSlot c))
  | .jmp a => 6 :: encodeSlot a
  | .jt a b => 7 :: (encodeSlot a ++ encodeSlot b)
  | .jf a b => 8 :: (encodeSlot a ++ encodeSlot b)
  | .add a b c => 9 :: (encodeSlot a ++ (encodeSlot b ++ encodeSlot c))
  | .mult a b c => 10 :: (encodeSlot a ++ (encodeSlot b ++ encodeSlot c))
  | .mod a b c => 11 :: (encodeSlot a ++ (encodeSlot b ++ encodeSlot c))
  | .and a b c => 12 :: (encodeSlot a ++ (encodeSlot b ++ encodeSlot c))
  | .or a b c => 13 :: (encodeSlot a ++ (encodeSlot b ++ encodeSlot c))
  | .not a b => 14 :: (encodeSlot a ++ encodeSlot b)
  | .rmem a b => 15 :: (encodeSlot a ++ encodeSlot b)
  | .wmem a b => 16 :: (encodeSlot a ++ encodeSlot b)
  | .call a => 17 :: encodeSlot a
  | .ret => [18]
  | .out a => 19 :: encodeSlot a
  | .in_ a => 20 :: encodeSlot a
  | .noop => [21]

/-- The word of a low and a high byte: `(high << 8) + low` (spec/20_memory.md rule R51). -/
def wordOfBytes (low high : Byte) : Word := high ++ low

/-- The low byte of a word: `low(w) = w[7:0]` (spec/00_scope.md rule R7). -/
def lowByte (w : Word) : Byte := w.extractLsb' 0 8

/-- The high byte of a word: `high(w) = w[15:8]` (spec/00_scope.md rule R7). -/
def highByte (w : Word) : Byte := w.extractLsb' 8 8

/-- Bytes as words, each word's low byte first; an odd last byte is the low byte of a word whose high
byte is 0, as in a program image (spec/70_reset_and_hazards.md rule R261). -/
def wordsOfBytes : List Byte → List Word
  | low :: high :: rest => wordOfBytes low high :: wordsOfBytes rest
  | [low] => [wordOfBytes low 0]
  | [] => []

/-- Words as bytes, low byte first (spec/20_memory.md rule R51). -/
def bytesOfWords : List Word → List Byte
  | [] => []
  | w :: ws => lowByte w :: highByte w :: bytesOfWords ws

/-- The instruction in a list of bytes, as the Address Space holds them. -/
def decodeBytes (bs : List Byte) : Except DecodeError Instr := decode (wordsOfBytes bs)

/-- The first `n` bytes of the number `w`, least significant first. -/
def bytesOfNat : Nat → Nat → List Byte
  | 0, _ => []
  | n + 1, w => BitVec.ofNat 8 w :: bytesOfNat n (w / 256)

/-- The eight bytes (four words, the longest instruction) of an instruction whose bits are `w`,
numbered as spec/opcode_table.json numbers them, all bits from `nbits` up taken as 0. -/
def tableBytes (nbits w : Nat) : List Byte := bytesOfNat 8 (w % 2 ^ nbits)

/-- The instruction the decoder reads from the bits `w` of a row of spec/opcode_table.json. -/
def decodeTableWord (nbits w : Nat) : Option Instr :=
  match decodeBytes (tableBytes nbits w) with
  | .ok i => some i
  | .error _ => none

end Sys2Proof
end

