-- ==== Sys2Proof/Machine/State.lean ====
section
/-! DEFINITION. The Machine State and its reset value (spec/10_state.md rules R20 to R36), and the
reasons for which a step or a load stops. -/

namespace Sys2Proof.Machine

/-- The Address Space as its 65536 bytes (spec/20_memory.md rules R50 and R51): cells of a byte offset
and a byte, in canonical form (`Memory.wf`). A byte that no cell lists is `Config.fillByte`. -/
abbrev Memory := List Host.Cell

/-- The canonical form of a memory: byte offsets strictly rising, all of them inside the Address
Space, and no cell that says what an unlisted byte says anyway. -/
abbrev Memory.wf (m : Memory) : Prop :=
  m.Pairwise (fun c d => c.1 < d.1) ∧ ∀ c ∈ m, c.1 < Config.memBytes ∧ c.2 ≠ Config.fillByte

/-- The six error kinds (spec/60_exceptions.md rule R220). -/
inductive ErrorKind where
  | outOfBounds
  | invalidWord
  | typeMismatch
  | stackUnderflow
  | unknownOpcode
  | divideByZero
deriving DecidableEq, Repr

/-- The numeric code of an error kind on the `status` interface (rule R220; the spec's decision D7). -/
def ErrorKind.code : ErrorKind → Nat
  | .outOfBounds => 1
  | .invalidWord => 2
  | .typeMismatch => 3
  | .stackUnderflow => 4
  | .unknownOpcode => 5
  | .divideByZero => 6

/-- The fault record (spec/10_state.md rule R28): the error kind, the address of the faulting
instruction's opcode word, and the offending word, value or address. -/
structure FaultRecord where
  kind : ErrorKind
  pc : Word
  value : Word
deriving DecidableEq, Repr

/-- A line of the Debug Command Surface after parsing (spec/60_exceptions.md rule R235). How a line is
spelled is not in the spec (spec/91_not_in_source.md N24; DESIGN CHOICE, safe, log entry 5). -/
inductive DebugCommand where
  | dump
  /-- `set <register> <value>`, its arguments as numbers of any size. -/
  | set (register value : Nat)
  | save (path : String)
  /-- `export <path>`. -/
  | exportTo (path : String)
  /-- Any other line. -/
  | malformed (line : String)
deriving DecidableEq, Repr

/-- One byte delivered by the interactive stream (spec/47_io.md rule R203). Which bytes end a line is not in the spec,
nor how a line is spelled (spec/91_not_in_source.md N23 and N24): the environment says both here (DESIGN CHOICE,
safe, log entry 5).
Delivered to a program, an item is its byte and nothing more. -/
inductive StreamItem where
  /-- A byte that ends no line. -/
  | byte (b : Byte)
  /-- A byte that ends a line. Where the adapter reads that line as a command line, `command` is what it parses the
  line to; otherwise `command` is not looked at. -/
  | lineEnd (b : Byte) (command : DebugCommand)
deriving DecidableEq, Repr

/-- The Machine State (spec/10_state.md rule R20), the record of emitted bytes that rule R30 asks a
model to keep, and the model's own view of the environment. -/
structure State where
  /-- Address Space. -/
  mem : Memory
  /-- Register File (rule R21). -/
  x : Vector Word 8
  /-- Program Counter (rule R23). -/
  pc : Word
  /-- Execution Stack, top first (rule R26). -/
  stack : List Word
  /-- Running flag (rule R27). -/
  running : Bool
  /-- Fault record (rule R28). -/
  fault : Option FaultRecord
  /-- Input Buffer, front first (rule R29). -/
  inbuf : List Byte
  /-- The bytes emitted so far, oldest first (rule R30). -/
  output : List Byte
  /-- THE MODEL'S OWN FIELD: what the interactive stream has delivered and no `in` has consumed, in
  stream order. It stands for the environment's draw (spec/47_io.md rule R203, spec/93_implementation_defined.md U9 and U12; DESIGN CHOICE, log
  entry 2): no statement rests on one value of it. -/
  stream : List StreamItem
deriving DecidableEq, Repr

/-- Why the machine stops outside the spec's own faults, which are next states with a fault record. -/
inductive Fault where
  /-- Raised by `step` on a state whose running flag is false: no step is taken from a terminal
  state (spec/40_execution_cycle.md rule R110). Safe: the spec gives no step there (log entry 4). -/
  | terminal
deriving DecidableEq, Repr

/-- Why something has no meaning in the model. -/
inductive Refusal where
  /-- An instruction that has no meaning yet; raised by `exec` alone. Safe. No arm of `exec` uses it. -/
  | notModelled (mnemonic : String)
  /-- Raised by the loader for a program image of more than 65536 bytes (spec/70_reset_and_hazards.md
  rule R261, spec/93_implementation_defined.md U14). Safe: no Machine State is created from one. -/
  | imageTooLong
  /-- Raised by the loader for a scripted-input file given together with a snapshot
  (spec/93_implementation_defined.md U13). Safe: the spec defines no launch state for it. -/
  | scriptWithSnapshot
deriving DecidableEq, Repr

/-- The state after reset, with nothing loaded (spec/10_state.md rule R36): the state that the empty
program image gives (spec/70_reset_and_hazards.md rule R264). `stream` is empty by DESIGN CHOICE (log entry 2). -/
def State.reset : State where
  mem := []
  x := Vector.replicate 8 0
  pc := 0
  stack := []
  running := true
  fault := none
  inbuf := []
  output := []
  stream := []

end Sys2Proof.Machine
end

