-- ==== Sys2Proof/Machine/Ops.lean ====
section
/-! DEFINITION. The named operations over memory, registers, stack, input and output, the taking of a
fault, and the fetch (spec/10_state.md, 20_memory.md, 40_execution_cycle.md, 60_exceptions.md). -/

namespace Sys2Proof.Machine

/-! ## Memory -/

/-- The byte at offset `a` of the Address Space's byte store. -/
def Memory.readByte : Memory → Nat → Byte
  | [], _ => Config.fillByte
  | (b, v) :: rest, a => if b = a then v else Memory.readByte rest a

/-- `cell` in front of `rest`, unless it says what an unlisted byte says. -/
def Memory.consByte (a : Nat) (v : Byte) (rest : Memory) : Memory :=
  if v = Config.fillByte then rest else (a, v) :: rest

/-- The byte store with the byte at offset `a` set to `v`, in canonical form. -/
def Memory.writeByte : Memory → Nat → Byte → Memory
  | [], a, v => Memory.consByte a v []
  | (b, w) :: rest, a, v =>
    if a < b then Memory.consByte a v ((b, w) :: rest)
    else if a = b then Memory.consByte a v rest
    else (b, w) :: Memory.writeByte rest a v

/-- The word at word address `a`: bytes `2a` (low) and `2a + 1` (high) (spec/20_memory.md rule R51). -/
def Memory.readWord (m : Memory) (a : Nat) : Word :=
  wordOfBytes (m.readByte (2 * a)) (m.readByte (2 * a + 1))

/-- The memory with the word at word address `a` set to `v` (rule R51). -/
def Memory.writeWord (m : Memory) (a : Nat) (v : Word) : Memory :=
  (m.writeByte (2 * a) (lowByte v)).writeByte (2 * a + 1) (highByte v)

/-- A byte image as a memory, its first byte at offset `a` (spec/20_memory.md rule R65). -/
def Memory.ofBytes : Nat → List Byte → Memory
  | _, [] => []
  | a, v :: rest => Memory.consByte a v (Memory.ofBytes (a + 1) rest)

/-- The whole Address Space as packed bytes: the raw image (rule R65). -/
def Memory.image (m : Memory) : List Byte :=
  (List.range Config.memBytes).map m.readByte

/-- At most `n` words from word address `a` on, as far as the Address Space reaches. -/
def Memory.wordsFrom (m : Memory) : Nat → Nat → List Word
  | _, 0 => []
  | a, n + 1 => if a < Config.memWords then m.readWord a :: Memory.wordsFrom m (a + 1) n else []

/-! ## Faults -/

/-- What `raise <Kind>(value)` raises (spec/00_scope.md rule R10). -/
structure Trap where
  kind : ErrorKind
  value : Word
deriving DecidableEq, Repr

/-- Taking a fault (spec/40_execution_cycle.md rule R106, spec/60_exceptions.md rule R229): the fault
record is written with the kind, the Program Counter and the value, and the running flag is cleared;
nothing else changes, and control goes nowhere. There is no return from a fault (rule R230). -/
def State.takeFault (s : State) (t : Trap) : State :=
  { s with fault := some ⟨t.kind, s.pc, t.value⟩, running := false }

/-- The end of an instruction that faults: a next state, terminal and faulted. -/
def raise (t : Trap) (s : State) : Host.Outcome State Fault Refusal := .next (s.takeFault t)

/-- `MemRead(addr, 1)` (spec/20_memory.md rule R52). -/
def memRead (s : State) (addr : Word) : Except Trap Word :=
  if addr.toNat < Config.memWords then .ok (s.mem.readWord addr.toNat) else .error ⟨.outOfBounds, addr⟩

/-- `MemWrite(addr, 1, v)` (spec/20_memory.md rule R53). -/
def memWrite (s : State) (addr v : Word) : Except Trap State :=
  if addr.toNat < Config.memWords then .ok { s with mem := s.mem.writeWord addr.toNat v }
  else .error ⟨.outOfBounds, addr⟩

/-! ## Registers, Program Counter, running flag -/

/-- `x[r]` (spec/10_state.md rule R21). -/
def State.getReg (s : State) (r : Fin 8) : Word := s.x[r.val]

/-- `x[r] <- v` (rule R21): no register is hardwired. -/
def State.setReg (s : State) (r : Fin 8) (v : Word) : State := { s with x := s.x.set r.val v }

/-- `pc <- v` (rule R24). -/
def State.setPc (s : State) (v : Word) : State := { s with pc := v }

/-- `next`: the program-counter adder, for an instruction of `n` operands
(spec/40_execution_cycle.md rule R105). -/
def State.nextPc (s : State) (n : Nat) : Word := s.pc + BitVec.ofNat 16 (1 + n)

/-- The default advance past an instruction of `n` operands (rule R105). -/
def State.advance (s : State) (n : Nat) : State := s.setPc (s.nextPc n)

/-- `running <- false` (rule R27). -/
def State.stop (s : State) : State := { s with running := false }

/-! ## Stack -/

/-- `Push(v)` (rule R26): always succeeds. -/
def State.push (s : State) (v : Word) : State := { s with stack := v :: s.stack }

/-- `StackEmpty()` and `Pop()` (rule R26): nothing on an empty stack, else the top word and the state
without it. -/
def State.pop? (s : State) : Option (Word × State) :=
  match s.stack with
  | [] => none
  | v :: rest => some (v, { s with stack := rest })

/-! ## Host: the debug commands (spec/60_exceptions.md rules R234 to R236) -/

/-- The arguments that `set` takes: a register index of 0 to 7 and a value of 16 bits (rule R236, decision D15). -/
abbrev SetInRange (r v : Nat) : Prop := r < Config.numRegs ∧ v < 65536

/-- The effect of a debug command on the Machine State: `set` with a register index of 0 to 7 and a value
of 16 bits writes that register; every other command, and a `set` with other arguments, changes nothing
(rules R235 and R236, decisions D14 and D15). -/
def State.runCommand (s : State) : DebugCommand → State
  | .dump => s
  | .set r v => if SetInRange r v then s.setReg (Fin.ofNat 8 r) (BitVec.ofNat 16 v) else s
  | .save _ => s
  | .exportTo _ => s
  | .malformed _ => s

/-! ## Input and output (spec/47_io.md) -/

/-- `WriteOutputByte(b)` (rule R204). -/
def State.emit (s : State) (b : Byte) : State := { s with output := s.output ++ [b] }

/-- What the I/O Adapter answers, with the state it leaves (rule R203). -/
inductive InputAnswer where
  | byte (b : Byte) (s : State)
  | retry (s : State)
  | blocked
deriving DecidableEq, Repr

/-- The byte of a delivery. -/
def StreamItem.value : StreamItem → Byte
  | .byte b => b
  | .lineEnd b _ => b

/-- One full line of the interactive stream: its bytes up to the one that ends it, consumed together. The answer is
what the line parses to and what comes after it; nothing while the line has not ended. -/
def readLine : List StreamItem → Option (DebugCommand × List StreamItem)
  | [] => none
  | .byte _ :: rest => readLine rest
  | .lineEnd _ c :: rest => some (c, rest)

/-- `ReadInputByte()` (rule R203): the Input Buffer first, in order and with no escape test; then one byte of the
interactive stream. The escape byte makes the adapter read the line after it and run it as a debug command. While
that line has not ended the adapter waits for more of it (rule R205), and the escape byte and the part of the line
stay in `stream` until they are consumed with the rest (DESIGN CHOICE, safe, log entry 5). -/
def readInputByte (s : State) : InputAnswer :=
  match s.inbuf with
  | b :: rest => .byte b { s with inbuf := rest }
  | [] =>
    match s.stream with
    | [] => .blocked
    | item :: rest =>
      if item.value = Config.escapeByte then
        match readLine rest with
        | none => .blocked
        | some (c, after) => .retry ({ s with stream := after }.runCommand c)
      else .byte item.value { s with stream := rest }

/-! ## Fetch (spec/40_execution_cycle.md rules R101 and R102) -/

/-- The words of the instruction at the Program Counter: at most four, as far as the Address Space
reaches. Reading them all at once cannot be told from reading them one by one, since a read changes
nothing (spec/20_memory.md rule R57). -/
def State.fetchWords (s : State) : List Word := s.mem.wordsFrom s.pc.toNat 4

/-- Fetch and decode (rules R101 and R102): OutOfBounds(pc) where there is no word at the Program Counter,
UnknownOpcode(op) where the word there is no opcode, else the instruction with its operand slots. -/
def fetch (s : State) : Except Trap Instr :=
  match decode s.fetchWords with
  | .ok i => .ok i
  | .error .noWord => .error ⟨.outOfBounds, s.pc⟩
  | .error (.unknownOpcode op) => .error ⟨.unknownOpcode, op⟩

/-- The memory with `ws` stored from word address `a` on, as far as the Address Space reaches. -/
def Memory.placeWords (m : Memory) : Nat → List Word → Memory
  | _, [] => m
  | a, w :: ws => if a < Config.memWords then (m.writeWord a w).placeWords (a + 1) ws else m

end Sys2Proof.Machine
end

