-- ==== Sys2Proof/Machine/Operands.lean ====
section
/-! DEFINITION. The Operand Resolver (spec/30_encoding.md rules R89 to R91) and the shape all meanings
share: resolve the slots in order, then act (spec/40_execution_cycle.md rules R103 to R107). -/

namespace Sys2Proof.Machine

/-- `ResolveReg` of the slot at `pc + k` (rule R90): the register index, never the register's content. -/
def resolveReg (k : Nat) (s : State) : Operand → Except Trap (Fin 8)
  | .reg r => .ok r
  | .lit v => .error ⟨.typeMismatch, v.setWidth 16⟩
  | .invalid raw => .error ⟨.invalidWord, raw⟩
  | .absent => .error ⟨.outOfBounds, s.pc + BitVec.ofNat 16 k⟩

/-- `ResolveVal` of the slot at `pc + k` (rule R91): a literal itself, zero-extended, or all 16 bits of the
register's content, which is not classified again (rule R89). -/
def resolveVal (k : Nat) (s : State) : Operand → Except Trap Word
  | .lit v => .ok (v.setWidth 16)
  | .reg r => .ok (s.getReg r)
  | .invalid raw => .error ⟨.invalidWord, raw⟩
  | .absent => .error ⟨.outOfBounds, s.pc + BitVec.ofNat 16 k⟩

/-- The rest of an instruction, after its reg slot at `pc + k`. -/
def withReg (k : Nat) (o : Operand) (s : State) (rest : Fin 8 → Host.Outcome State Fault Refusal) :
    Host.Outcome State Fault Refusal :=
  match resolveReg k s o with
  | .ok r => rest r
  | .error t => raise t s

/-- The rest of an instruction, after its val slot at `pc + k`. -/
def withVal (k : Nat) (o : Operand) (s : State) (rest : Word → Host.Outcome State Fault Refusal) :
    Host.Outcome State Fault Refusal :=
  match resolveVal k s o with
  | .ok v => rest v
  | .error t => raise t s

/-- Format RV: destination `a`, value of `b` (rule R84). -/
def withRV (a b : Operand) (s : State) (rest : Fin 8 → Word → Host.Outcome State Fault Refusal) :
    Host.Outcome State Fault Refusal :=
  withReg 1 a s fun d => withVal 2 b s fun y => rest d y

/-- Format VV: values of `a` and `b` (rule R84). -/
def withVV (a b : Operand) (s : State) (rest : Word → Word → Host.Outcome State Fault Refusal) :
    Host.Outcome State Fault Refusal :=
  withVal 1 a s fun x => withVal 2 b s fun y => rest x y

/-- Format RVV: destination `a`, values of `b` and `c` (rule R84). -/
def withRVV (a b c : Operand) (s : State) (rest : Fin 8 → Word → Word → Host.Outcome State Fault Refusal) :
    Host.Outcome State Fault Refusal :=
  withReg 1 a s fun d => withVal 2 b s fun y => withVal 3 c s fun z => rest d y z

/-- An instruction of `n` operands that writes one register and goes on to the next. -/
def writeBack (n : Nat) (d : Fin 8) (v : Word) (s : State) : Host.Outcome State Fault Refusal :=
  .next ((s.setReg d v).advance n)

/-- An instruction of format RVV that computes one word from two. -/
def computeRVV (f : Word → Word → Word) (a b c : Operand) (s : State) : Host.Outcome State Fault Refusal :=
  withRVV a b c s fun d y z => writeBack 3 d (f y z) s

end Sys2Proof.Machine
end

