-- ==== Sys2Proof/Machine/Arith.lean ====
section
/-! DEFINITION. `add`, `mult`, `mod`, `and`, `or` and `not` (spec/45_arith_logic.md). The formulas are applied
to all 16 bits of the operand values (rule R177, decision D2). -/

namespace Sys2Proof.Machine

/-- The exact sum, reduced modulo 32768 (rules R170 and R171). -/
def addWord (y z : Word) : Word := BitVec.ofNat 16 ((y.toNat + z.toNat) % Config.dataModulus)

/-- The exact product, reduced modulo 32768 (rules R170 and R172). -/
def multWord (y z : Word) : Word := BitVec.ofNat 16 ((y.toNat * z.toNat) % Config.dataModulus)

/-- The remainder of unsigned division, for a divisor that is not zero (rule R173). -/
def modWord (y z : Word) : Word := BitVec.ofNat 16 (y.toNat % z.toNat)

/-- The complement of the low 15 bits, bit 15 cleared (rule R176). -/
def notWord (y : Word) : Word := ~~~y &&& 0x7FFF#16

/-- `add a b c` (rule R171). -/
def execAdd (a b c : Operand) (s : State) : Host.Outcome State Fault Refusal := computeRVV addWord a b c s

/-- `mult a b c` (rule R172). -/
def execMult (a b c : Operand) (s : State) : Host.Outcome State Fault Refusal := computeRVV multWord a b c s

/-- `mod a b c` (rule R173): DivideByZero(0) when the divisor's value is 0 (decision D3). -/
def execMod (a b c : Operand) (s : State) : Host.Outcome State Fault Refusal :=
  withRVV a b c s fun d y z =>
    if z.toNat = 0 then raise ⟨.divideByZero, 0⟩ s else writeBack 3 d (modWord y z) s

/-- `and a b c` (rule R174). -/
def execAnd (a b c : Operand) (s : State) : Host.Outcome State Fault Refusal :=
  computeRVV (fun y z => y &&& z) a b c s

/-- `or a b c` (rule R175). -/
def execOr (a b c : Operand) (s : State) : Host.Outcome State Fault Refusal :=
  computeRVV (fun y z => y ||| z) a b c s

/-- `not a b` (rule R176). -/
def execNot (a b : Operand) (s : State) : Host.Outcome State Fault Refusal :=
  withRV a b s fun d y => writeBack 2 d (notWord y) s

end Sys2Proof.Machine
end

