-- ==== Sys2Proof/Machine/Flags.lean ====
section
/-! DEFINITION. The condition logic and the results of comparisons. The machine has no flags
(spec/10_state.md rule R25): a comparison's result is a word, and a condition is a test of a word. -/

namespace Sys2Proof.Machine

/-- The zero test of `jt` and `jf`, on all 16 bits (spec/44_control.md rule R150). -/
def isZero (v : Word) : Bool := v.toNat == 0

/-- The word 1 or 0 that a comparison stores (spec/43_compare.md rule R142). -/
def ofBool (c : Bool) : Word := if c then 1 else 0

/-- `eq`: equality of all 16 bits (rule R140). -/
def eqWord (y z : Word) : Word := ofBool (y == z)

/-- `gt`: unsigned and strict (rule R141). -/
def gtWord (y z : Word) : Word := ofBool (decide (z.toNat < y.toNat))

end Sys2Proof.Machine
end

