-- ==== Sys2Proof/Machine/Compare.lean ====
section
/-! DEFINITION. `eq` and `gt` (spec/43_compare.md). -/

namespace Sys2Proof.Machine

/-- `eq a b c` (rule R140). -/
def execEq (a b c : Operand) (s : State) : Host.Outcome State Fault Refusal := computeRVV eqWord a b c s

/-- `gt a b c` (rule R141). -/
def execGt (a b c : Operand) (s : State) : Host.Outcome State Fault Refusal := computeRVV gtWord a b c s

end Sys2Proof.Machine
end

