-- ==== Sys2Proof/Machine/Control.lean ====
section
/-! DEFINITION. `jmp`, `jt`, `jf`, `call` and `ret` (spec/44_control.md). A target is loaded as it is: only
the next fetch checks it (rule R156). -/

namespace Sys2Proof.Machine

/-- `jmp a` (rule R151). -/
def execJmp (a : Operand) (s : State) : Host.Outcome State Fault Refusal :=
  withVal 1 a s fun target => .next (s.setPc target)

/-- `jt a b` (rule R152). -/
def execJt (a b : Operand) (s : State) : Host.Outcome State Fault Refusal :=
  withVV a b s fun v target => .next (if isZero v then s.advance 2 else s.setPc target)

/-- `jf a b` (rule R153). -/
def execJf (a b : Operand) (s : State) : Host.Outcome State Fault Refusal :=
  withVV a b s fun v target => .next (if isZero v then s.setPc target else s.advance 2)

/-- `call a` (rule R154): the return address is the output of the program-counter adder. -/
def execCall (a : Operand) (s : State) : Host.Outcome State Fault Refusal :=
  withVal 1 a s fun target => .next ((s.push (s.nextPc 1)).setPc target)

/-- `ret` (rule R155): on an empty stack a clean halt with the Program Counter unchanged (decision D9). -/
def execRet (s : State) : Host.Outcome State Fault Refusal :=
  match s.pop? with
  | none => .next s.stop
  | some (target, s') => .next (s'.setPc target)

end Sys2Proof.Machine
end

