-- ==== Sys2Proof/Machine/InOut.lean ====
section
/-! DEFINITION. `out` and `in` (spec/47_io.md). -/

namespace Sys2Proof.Machine

/-- `out a` (rule R200): the low 8 bits of the value, never waiting (decisions D19 and D22). -/
def execOut (a : Operand) (s : State) : Host.Outcome State Fault Refusal :=
  withVal 1 a s fun v => .next ((s.emit (v.setWidth 8)).advance 1)

/-- `in a` (rule R201): one byte, zero-extended. A blocked `in` is the step that changes nothing and is
taken again (rule R205); after a debug command the Program Counter is unchanged and the instruction is
executed again (rule R206). -/
def execIn (a : Operand) (s : State) : Host.Outcome State Fault Refusal :=
  withReg 1 a s fun d =>
    match readInputByte s with
    | .byte b s' => writeBack 1 d (b.setWidth 16) s'
    | .retry s' => .next s'
    | .blocked => .next s

end Sys2Proof.Machine
end

