-- ==== Sys2Proof/Machine/MemoryOps.lean ====
section
/-! DEFINITION. `rmem` and `wmem` (spec/46_memory_ops.md). The effective address is the value of a val
operand (rule R190); a word moves whole and is not classified (spec/30_encoding.md rule R89). -/

namespace Sys2Proof.Machine

/-- `rmem a b` (rule R191). -/
def execRmem (a b : Operand) (s : State) : Host.Outcome State Fault Refusal :=
  withRV a b s fun d addr =>
    match memRead s addr with
    | .ok v => writeBack 2 d v s
    | .error t => raise t s

/-- `wmem a b` (rule R192). -/
def execWmem (a b : Operand) (s : State) : Host.Outcome State Fault Refusal :=
  withVV a b s fun addr v =>
    match memWrite s addr v with
    | .ok s' => .next (s'.advance 2)
    | .error t => raise t s

end Sys2Proof.Machine
end

