-- ==== Sys2Proof/Machine/MoveStack.lean ====
section
/-! DEFINITION. `set`, `push` and `pop` (spec/42_move_stack.md). -/

namespace Sys2Proof.Machine

/-- `set a b` (rule R130). -/
def execSet (a b : Operand) (s : State) : Host.Outcome State Fault Refusal :=
  withRV a b s fun d y => writeBack 2 d y s

/-- `push a` (rule R131). -/
def execPush (a : Operand) (s : State) : Host.Outcome State Fault Refusal :=
  withVal 1 a s fun v => .next ((s.push v).advance 1)

/-- `pop a` (rule R132): StackUnderflow(0) on an empty stack, checked after the operand. -/
def execPop (a : Operand) (s : State) : Host.Outcome State Fault Refusal :=
  withReg 1 a s fun d =>
    match s.pop? with
    | none => raise ⟨.stackUnderflow, 0⟩ s
    | some (v, s') => writeBack 1 d v s'

end Sys2Proof.Machine
end

