-- ==== Sys2Proof/Machine/System.lean ====
section
/-! DEFINITION. `halt` and `noop` (spec/41_system.md). -/

namespace Sys2Proof.Machine

/-- `halt` (rule R120): the run is over, with no fault; the Program Counter advances (decision D9). -/
def execHalt (s : State) : Host.Outcome State Fault Refusal := .next (s.stop.advance 0)

/-- `noop` (rule R121). -/
def execNoop (s : State) : Host.Outcome State Fault Refusal := .next (s.advance 0)

end Sys2Proof.Machine
end

