-- ==== Sys2Proof/Machine/Step.lean ====
section
/-! DEFINITION. One step of the core (spec/40_execution_cycle.md rules R100 and R108). -/

namespace Sys2Proof.Machine

/-- One step, taken exactly when the running flag is true (rule R100). -/
def step (s : State) : Host.Outcome State Fault Refusal :=
  if s.running then
    match fetch s with
    | .ok i => exec i s
    | .error t => raise t s
  else .fault .terminal

/-- `s` with the instruction of the bits `w` (numbered as spec/opcode_table.json numbers them) stored at
the Program Counter, all four words of it; nothing else changes. From a running state whose Program
Counter leaves room for it, the next step runs that instruction (log entry 17). -/
def State.withFetchWord (s : State) (nbits w : Nat) : State :=
  { s with mem := s.mem.placeWords s.pc.toNat (wordsOfBytes (tableBytes nbits w)) }

end Sys2Proof.Machine
end

