-- ==== Sys2Proof/Machine/HostPort.lean ====
section
/-! DEFINITION. The block's `load` and `debug` interfaces and the accessors (spec/47_io.md rule R207,
spec/70_reset_and_hazards.md rules R260 to R263, spec/60_exceptions.md rules R234 to R240). -/

namespace Sys2Proof.Machine

/-- The state after a load of a program image, with an optional scripted-input file (rules R261, R263 and
spec/10_state.md rule R36): the image from byte offset 0 on, verbatim, and 0 beyond it. An image of more
than 65536 bytes is refused: no state is created from one. -/
def loadImage (image : List Byte) (script : Option (List Byte)) : Host.Outcome State Fault Refusal :=
  if image.length ≤ Config.memBytes then
    .next { State.reset with mem := Memory.ofBytes 0 image, inbuf := script.getD [] }
  else .refused .imageTooLong

/-- What a snapshot holds: every component of the Machine State (spec/60_exceptions.md rule R237, spec/10_state.md
rule R20), the fault record included, which a load does not take (rule R262, decision D7). Its file
format is out of scope (spec/00_scope.md rule R4). -/
structure Snapshot where
  mem : Memory
  x : Vector Word 8
  pc : Word
  stack : List Word
  running : Bool
  fault : Option FaultRecord
  inbuf : List Byte
deriving DecidableEq, Repr

/-- The full-state accessor (rule R237). -/
def State.snapshot (s : State) : Snapshot := ⟨s.mem, s.x, s.pc, s.stack, s.running, s.fault, s.inbuf⟩

/-- The state after a load of a snapshot (rule R262): the six components that rule names as the snapshot has them, none
of them checked (decision D21), and the fault record absent (decision D7). A scripted-input file beside it is refused,
since the spec defines no state for that (spec/93_implementation_defined.md U13). -/
def loadSnapshot (p : Snapshot) (script : Option (List Byte)) : Host.Outcome State Fault Refusal :=
  match script with
  | none =>
    .next { State.reset with
      mem := p.mem, x := p.x, pc := p.pc, stack := p.stack, running := p.running, inbuf := p.inbuf }
  | some _ => .refused .scriptWithSnapshot

/-- What a debug command shows or writes (rule R235). -/
inductive DebugReport where
  /-- Address Space size, registers, stack, running flag, Program Counter. -/
  | dump (size : Nat) (x : Vector Word 8) (stack : List Word) (running : Bool) (pc : Word)
  /-- The raw image, written to a new file. -/
  | image (bytes : List Byte)
  /-- A snapshot, written to a new file. -/
  | snapshot (p : Snapshot)
  /-- The file exists already: reported, nothing written (rule R240). -/
  | refusedOverwrite
  /-- The line is none of the four commands, or has the wrong number or form of arguments: reported, nothing done
  (rules R235 and R240). -/
  | noSuchCommand
  /-- The arguments of `set` are out of range: reported, nothing done (rules R236 and R240). -/
  | setOutOfRange
  /-- `set` has written its register. -/
  | registerSet
deriving DecidableEq, Repr

/-- The reports of rule R240's non-fatal conditions: the command is a no-op. -/
def DebugReport.isNoOp : DebugReport → Bool
  | .refusedOverwrite | .noSuchCommand | .setOutOfRange => true
  | .dump .. | .image _ | .snapshot _ | .registerSet => false

/-- The report of a debug command on the state it finds, where `fileExists` says which paths are taken
(rules R235, R236 and R240; a line that is no command and arguments out of range are treated as the reported
no-ops of rule R240 by the spec's decisions D14 and D15). Its effect on the Machine State is `State.runCommand`. -/
def debugReport (fileExists : String → Bool) (s : State) : DebugCommand → DebugReport
  | .dump => .dump Config.memWords s.x s.stack s.running s.pc
  | .set r v => if SetInRange r v then .registerSet else .setOutOfRange
  | .save path => if fileExists path then .refusedOverwrite else .image s.mem.image
  | .exportTo path => if fileExists path then .refusedOverwrite else .snapshot s.snapshot
  | .malformed _ => .noSuchCommand

/-- The `status` interface: the running flag, and the fault record with the kind as its code
(spec/47_io.md rule R207, spec/60_exceptions.md rule R220). -/
def State.status (s : State) : Bool × Option (Nat × Word × Word) :=
  (s.running, s.fault.map fun f => (f.kind.code, f.pc, f.value))

/-- The environment's move: the interactive stream delivers one more byte (spec/47_io.md rule R205). -/
def State.deliver (s : State) (i : StreamItem) : State := { s with stream := s.stream ++ [i] }

end Sys2Proof.Machine
end

