-- ==== Sys2Proof/Safety.lean ====
section
/-! DEFINITION. What counts as a good state and a good run, and the terms the statements use. Nothing here
gives an instruction its meaning; where a rule of spec/ can be written without the model's own operations it
is written so, and a statement then compares the two. -/

namespace Sys2Proof.Machine

/-! ## States -/

/-- A terminal state (spec/40_execution_cycle.md rule R110). -/
def State.Terminal (s : State) : Prop := s.running = false

/-- Terminal with no fault recorded (rule R110). -/
def State.Halted (s : State) : Prop := s.running = false ∧ s.fault = none

/-- Terminal with a fault recorded (rule R110). -/
def State.Faulted (s : State) : Prop := s.running = false ∧ s.fault ≠ none

/-- The recorded value agrees with the kind, by the last two columns of spec/60_exceptions.md rule R220's table. -/
def FaultRecord.Sound (f : FaultRecord) : Prop :=
  match f.kind with
  | .outOfBounds => 32768 ≤ f.value.toNat
  | .invalidWord => 32776 ≤ f.value.toNat
  | .typeMismatch => f.value.toNat < 32768
  | .stackUnderflow => f.value = 0
  | .unknownOpcode => 22 ≤ f.value.toNat
  | .divideByZero => f.value = 0

/-- The invariant of the machine: memory is in canonical form, and a recorded fault is sound, was recorded at
the Program Counter the machine still shows, and has stopped it (rules R28, R106, R220, R229). -/
def State.Inv (s : State) : Prop :=
  s.mem.wf ∧ ∀ f, s.fault = some f → s.running = false ∧ f.pc = s.pc ∧ f.Sound

/-- The interactive stream has nothing for the adapter: nothing is delivered, or an escape byte and a part of the
line after it (spec/47_io.md rules R203 and R205). -/
def AwaitsDelivery (stream : List StreamItem) : Prop :=
  stream = [] ∨ ∃ (e : StreamItem) (line : List Byte), e.value = Config.escapeByte ∧ stream = e :: line.map .byte

/-- The interactive stream holds an escape byte and the whole line after it, which parses to `c`, and then `rest`
(rule R203). -/
def CommandAt (stream : List StreamItem) (c : DebugCommand) (rest : List StreamItem) : Prop :=
  ∃ (e : StreamItem) (line : List Byte) (b : Byte), e.value = Config.escapeByte ∧
    stream = e :: (line.map .byte ++ .lineEnd b c :: rest)

/-- The core is blocked in `in` (spec/47_io.md rule R205): the instruction at the Program Counter is an `in` with a
register operand, the Input Buffer is empty, and the interactive stream has delivered nothing, or an escape
byte whose line has not ended. -/
def State.Waiting (s : State) : Prop :=
  s.running = true ∧ (∃ r, fetch s = .ok (.in_ (.reg r))) ∧ s.inbuf = [] ∧
    AwaitsDelivery s.stream

/-! ## Frames -/

/-- The parts of the state, the Program Counter aside. -/
inductive Part where
  | mem
  | regs
  | stack
  | running
  | fault
  | inbuf
  | output
  | stream
deriving DecidableEq, Repr

/-- One part is the same in both states; memory byte by byte, through the model's read of one byte. -/
def State.same (s t : State) : Part → Prop
  | .mem => ∀ a, t.mem.readByte a = s.mem.readByte a
  | .regs => ∀ r, t.getReg r = s.getReg r
  | .stack => t.stack = s.stack
  | .running => t.running = s.running
  | .fault => t.fault = s.fault
  | .inbuf => t.inbuf = s.inbuf
  | .output => t.output = s.output
  | .stream => t.stream = s.stream

/-- From `s` to `t` nothing changes but the listed parts and the Program Counter. -/
def State.onlyChanges (s t : State) (parts : List Part) : Prop := ∀ p, p ∉ parts → s.same t p

/-! ## Operands -/

/-- The register a reg operand names. -/
def regOf : Operand → Fin 8
  | .reg r => r
  | _ => 0

/-- The value of a legal val operand (spec/30_encoding.md rule R91). -/
def State.valueOf (s : State) : Operand → Word
  | .lit v => v.setWidth 16
  | .reg r => s.getReg r
  | _ => 0

/-- The operand in the slot at `pc + k`, for `k` from 1 on. -/
def State.slot (s : State) (k : Nat) : Operand := slotAt (s.fetchWords.drop 1) (k - 1)

/-- The fault of one operand at `pc + k` (spec/40_execution_cycle.md rule R104, check 3). -/
def State.slotFault (s : State) (k : Nat) : SlotKind → Operand → Option Trap
  | _, .absent => some ⟨.outOfBounds, s.pc + BitVec.ofNat 16 k⟩
  | _, .invalid raw => some ⟨.invalidWord, raw⟩
  | .reg, .lit v => some ⟨.typeMismatch, v.setWidth 16⟩
  | .reg, .reg _ => none
  | .val, .lit _ => none
  | .val, .reg _ => none

/-- The first operand fault of a list of slots whose first stands at `pc + k` (rules R103 and R104). -/
def State.operandFault (s : State) : Nat → List (SlotKind × Operand) → Option Trap
  | _, [] => none
  | k, (kind, o) :: rest =>
    match s.slotFault k kind o with
    | some t => some t
    | none => s.operandFault (k + 1) rest

/-- All the operand faults of a list of slots whose first stands at `pc + k`. -/
def State.operandFaults (s : State) : Nat → List (SlotKind × Operand) → List Trap
  | _, [] => []
  | k, (kind, o) :: rest => (s.slotFault k kind o).toList ++ s.operandFaults (k + 1) rest

/-! ## The checks of a step, written over the words of memory alone (rule R104) -/

/-- The operand kinds of an opcode number (spec/30_encoding.md rule R84); none where it is no opcode. -/
def kindsOf : Nat → Option (List SlotKind)
  | 0 | 18 | 21 => some []
  | 2 | 6 | 17 | 19 => some [.val]
  | 3 | 20 => some [.reg]
  | 1 | 14 | 15 => some [.reg, .val]
  | 7 | 8 | 16 => some [.val, .val]
  | 4 | 5 | 9 | 10 | 11 | 12 | 13 => some [.reg, .val, .val]
  | _ => none

/-- Check 3 for the slot at word address `addr`: in bounds, not invalid, and a register reference where one
must stand. -/
def State.rawSlotFault (s : State) (kind : SlotKind) (addr : Nat) : Option Trap :=
  if 32768 ≤ addr then some ⟨.outOfBounds, BitVec.ofNat 16 addr⟩
  else if 32776 ≤ (s.mem.readWord addr).toNat then some ⟨.invalidWord, s.mem.readWord addr⟩
  else if kind = .reg ∧ (s.mem.readWord addr).toNat < 32768 then some ⟨.typeMismatch, s.mem.readWord addr⟩
  else none

/-- Check 3 for the slots from word address `addr` on. -/
def State.rawSlotsFault (s : State) : Nat → List SlotKind → Option Trap
  | _, [] => none
  | addr, kind :: rest =>
    match s.rawSlotFault kind addr with
    | some t => some t
    | none => s.rawSlotsFault (addr + 1) rest

/-- The value that the word `raw` gives as a val operand. -/
def State.rawValue (s : State) (raw : Word) : Word :=
  if raw.toNat < 32768 then raw else s.getReg (Fin.ofNat 8 (raw.toNat - 32768))

/-- The value of the val operand in the slot at `pc + k`. -/
def State.rawOperand (s : State) (k : Nat) : Word := s.rawValue (s.mem.readWord (s.pc.toNat + k))

/-- Check 4, the instruction's own: `pop` on an empty stack, `mod` by zero, `rmem` and `wmem` out of bounds. -/
def State.ownFault (s : State) (op : Nat) : Option Trap :=
  if op = 3 ∧ s.stack = [] then some ⟨.stackUnderflow, 0⟩
  else if op = 11 ∧ (s.rawOperand 3).toNat = 0 then some ⟨.divideByZero, 0⟩
  else if op = 15 ∧ 32768 ≤ (s.rawOperand 2).toNat then some ⟨.outOfBounds, s.rawOperand 2⟩
  else if op = 16 ∧ 32768 ≤ (s.rawOperand 1).toNat then some ⟨.outOfBounds, s.rawOperand 1⟩
  else none

/-- The first check of a step that fails (rule R104). -/
def State.failedCheck (s : State) : Option Trap :=
  if 32768 ≤ s.pc.toNat then some ⟨.outOfBounds, s.pc⟩
  else
    match kindsOf (s.mem.readWord s.pc.toNat).toNat with
    | none => some ⟨.unknownOpcode, s.mem.readWord s.pc.toNat⟩
    | some kinds =>
      match s.rawSlotsFault (s.pc.toNat + 1) kinds with
      | some t => some t
      | none => s.ownFault (s.mem.readWord s.pc.toNat).toNat

/-! ## The shapes of the instruction rules -/

/-- `i` at `s` completes: it writes the value `v` to register `d`, advances past its `n` words, and changes
nothing else but the listed parts. -/
def CompletesWriting (i : Instr) (s : State) (d : Fin 8) (v n : Nat) (parts : List Part) : Prop :=
  ∃ t, exec i s = .next t ∧ (t.getReg d).toNat = v ∧ (∀ r, r ≠ d → t.getReg r = s.getReg r) ∧
    t.pc = s.pc + BitVec.ofNat 16 n ∧ s.onlyChanges t (.regs :: parts)

/-- Where operands of `i` have faults, `i` raises one of them and has no other effect. Which of several it raises is
left open here (the order is rule R103, the spec's decision D5: Obligations.OperandFaultsInOrder). -/
def RaisesOperandFaults (i : Instr) (slots : List (SlotKind × Operand)) : Prop :=
  ∀ s : State, s.operandFaults 1 slots ≠ [] → ∃ t ∈ s.operandFaults 1 slots, exec i s = raise t s

/-- A Program Counter of 32768 or more makes the next step's fetch raise OutOfBounds(pc): there is no wrap
(spec/40_execution_cycle.md rule R101). -/
def State.FetchIsChecked (t : State) : Prop :=
  t.running = true → 32768 ≤ t.pc.toNat → step t = raise ⟨.outOfBounds, t.pc⟩ t

/-- The rule of an instruction of format RVV that computes one word: its encoding, its operand faults, and
on legal operands the register written. -/
def RuleRVV (op : Nat) (mk : Operand → Operand → Operand → Instr) (f : Nat → Nat → Nat) : Prop :=
  (∀ wa wb wc rest, decode (BitVec.ofNat 16 op :: wa :: wb :: wc :: rest) =
    .ok (mk (classify wa) (classify wb) (classify wc))) ∧
  ∀ a b c, RaisesOperandFaults (mk a b c) [(.reg, a), (.val, b), (.val, c)] ∧
    ∀ s, a.legal .reg = true → b.legal .val = true → c.legal .val = true →
      CompletesWriting (mk a b c) s (regOf a) (f (s.valueOf b).toNat (s.valueOf c).toNat) 4 []

/-- The same for format RV. -/
def RuleRV (op : Nat) (mk : Operand → Operand → Instr) (f : Nat → Nat) : Prop :=
  (∀ wa wb rest, decode (BitVec.ofNat 16 op :: wa :: wb :: rest) = .ok (mk (classify wa) (classify wb))) ∧
  ∀ a b, RaisesOperandFaults (mk a b) [(.reg, a), (.val, b)] ∧
    ∀ s, a.legal .reg = true → b.legal .val = true →
      CompletesWriting (mk a b) s (regOf a) (f (s.valueOf b).toNat) 3 []

/-- The common part of a rule of format VV: the encoding and the operand faults. -/
def EncodedVV (op : Nat) (mk : Operand → Operand → Instr) : Prop :=
  (∀ wa wb rest, decode (BitVec.ofNat 16 op :: wa :: wb :: rest) = .ok (mk (classify wa) (classify wb))) ∧
  ∀ a b, RaisesOperandFaults (mk a b) [(.val, a), (.val, b)]

/-- The common part of a rule of format V or R. -/
def EncodedOne (op : Nat) (kind : SlotKind) (mk : Operand → Instr) : Prop :=
  (∀ wa rest, decode (BitVec.ofNat 16 op :: wa :: rest) = .ok (mk (classify wa))) ∧
  ∀ a, RaisesOperandFaults (mk a) [(kind, a)]

end Sys2Proof.Machine
end

