-- ==== Sys2Proof/Certificates/Slice0/Obligations.lean ====
section
/-! DEFINITION. The statements for the provers. Each docstring names the rule of spec/ it formalises; where a
clause rests on one of the spec's own decisions (spec/92_eei_decisions.md) or on a choice of the model it says so. -/

open Sys2Proof Sys2Proof.Machine

/-! ## Encoding (spec/30_encoding.md) -/

/-- Words written out from the spec's encodings (rules R85 and R92) decode to the instructions they stand for,
one or more for each format. -/
def Obligations.SpecWordsDecode : Prop :=
  decode [0] = .ok .halt ∧
  decode [1, 32768, 5] = .ok (.set (.reg 0) (.lit 5)) ∧
  decode [2, 77] = .ok (.push (.lit 77)) ∧
  decode [3, 32775] = .ok (.pop (.reg 7)) ∧
  decode [4, 32769, 32768, 10] = .ok (.eq (.reg 1) (.reg 0) (.lit 10)) ∧
  decode [7, 32769, 13] = .ok (.jt (.reg 1) (.lit 13)) ∧
  decode [9, 32768, 32768, 32767] = .ok (.add (.reg 0) (.reg 0) (.lit 32767)) ∧
  decode [15, 32771, 32769] = .ok (.rmem (.reg 3) (.reg 1)) ∧
  decode [16, 31, 32768] = .ok (.wmem (.lit 31) (.reg 0)) ∧
  decode [20, 32768] = .ok (.in_ (.reg 0)) ∧
  decode [22] = .error (.unknownOpcode 22) ∧
  decode [32768] = .error (.unknownOpcode 32768)

/-- Decoding the words, or the bytes, of any well-formed instruction gives it back, whatever follows it in
memory (rules R80, R84, R85, R88; byte order R51). -/
def Obligations.DecodeAfterEncode : Prop :=
  ∀ (i : Instr) (rest : List Word), i.wf = true →
    decode (encode i ++ rest) = .ok i ∧
    decodeBytes (bytesOfWords (encode i ++ rest)) = .ok i

/-- Encoding a decoded instruction gives back the words it was decoded from, legal or not, so no bit of an
encoding is dropped; and an operand it calls invalid is (rules R80 to R85). -/
def Obligations.EncodeAfterDecode : Prop :=
  ∀ (ws : List Word) (i : Instr), decode ws = .ok i →
    encode i = ws.take i.words ∧ ∀ s ∈ i.slots, s.2.classified = true

/-- Rule R82, `Classify`: by range a literal of the same value, a register reference, or InvalidWord. -/
def Obligations.ClassifyByRange : Prop :=
  ∀ raw : Word,
    (raw.toNat < 32768 → ∃ v, classify raw = .lit v ∧ v.toNat = raw.toNat) ∧
    (32768 ≤ raw.toNat → raw.toNat ≤ 32775 → ∃ r, classify raw = .reg r ∧ r.val = raw.toNat - 32768) ∧
    (32776 ≤ raw.toNat → ∀ k s,
      resolveReg k s (classify raw) = .error ⟨.invalidWord, raw⟩ ∧
      resolveVal k s (classify raw) = .error ⟨.invalidWord, raw⟩)

/-- Rule R81: a word of 0 to 21 selects the instruction with that opcode number, and no other word is an
instruction, 32768 and more included; the kinds of its operands are those of rule R84's table. -/
def Obligations.OpcodeWordSelectsInstruction : Prop :=
  (∀ (op : Word) (ws : List Word), (∃ i, decode (op :: ws) = .ok i) ↔ op.toNat ≤ 21) ∧
  (∀ (op : Word) (ws : List Word), 22 ≤ op.toNat → decode (op :: ws) = .error (.unknownOpcode op)) ∧
  ∀ (op : Word) (ws : List Word) (i : Instr), decode (op :: ws) = .ok i →
    (encode i).head? = some op ∧ kindsOf op.toNat = some (i.slots.map Prod.fst)

/-- Rules R86 and R225: executing an opcode word of 22 to 65535 is the fault UnknownOpcode, whatever the
words after it are, and the Program Counter stays at it. -/
def Obligations.UnknownOpcodeIsFatal : Prop :=
  ∀ s : State, s.running = true → s.pc.toNat < 32768 → 22 ≤ (s.mem.readWord s.pc.toNat).toNat →
    step s = raise ⟨.unknownOpcode, s.mem.readWord s.pc.toNat⟩ s ∧
      ∃ t, step s = .next t ∧ t.running = false ∧ t.pc = s.pc

/-! ## Operands (spec/30_encoding.md) -/

/-- Rule R90, `ResolveReg` of the slot at `pc + k`: the fetch, then the range check, then the kind check. -/
def Obligations.ResolveRegOfSlot : Prop :=
  ∀ (s : State) (k : Nat), s.pc.toNat < 32768 → 1 ≤ k → k ≤ 3 →
    (32768 ≤ s.pc.toNat + k →
      resolveReg k s (s.slot k) = .error ⟨.outOfBounds, BitVec.ofNat 16 (s.pc.toNat + k)⟩) ∧
    (s.pc.toNat + k < 32768 → ∀ raw, raw = s.mem.readWord (s.pc.toNat + k) →
      (32776 ≤ raw.toNat → resolveReg k s (s.slot k) = .error ⟨.invalidWord, raw⟩) ∧
      (raw.toNat < 32768 → resolveReg k s (s.slot k) = .error ⟨.typeMismatch, raw⟩) ∧
      (∀ r : Fin 8, raw.toNat = 32768 + r.val → resolveReg k s (s.slot k) = .ok r))

/-- Rule R91, `ResolveVal` of the slot at `pc + k`: the literal, or all 16 bits of the register's content. -/
def Obligations.ResolveValOfSlot : Prop :=
  ∀ (s : State) (k : Nat), s.pc.toNat < 32768 → 1 ≤ k → k ≤ 3 →
    (32768 ≤ s.pc.toNat + k →
      resolveVal k s (s.slot k) = .error ⟨.outOfBounds, BitVec.ofNat 16 (s.pc.toNat + k)⟩) ∧
    (s.pc.toNat + k < 32768 → ∀ raw, raw = s.mem.readWord (s.pc.toNat + k) →
      (32776 ≤ raw.toNat → resolveVal k s (s.slot k) = .error ⟨.invalidWord, raw⟩) ∧
      (raw.toNat < 32768 → resolveVal k s (s.slot k) = .ok raw) ∧
      (∀ r : Fin 8, raw.toNat = 32768 + r.val → resolveVal k s (s.slot k) = .ok (s.getReg r)))

/-! ## Memory (spec/20_memory.md) -/

/-- Rule R52, `MemRead`. -/
def Obligations.MemReadRule : Prop :=
  ∀ (s : State) (addr : Word),
    (32768 ≤ addr.toNat → memRead s addr = .error ⟨.outOfBounds, addr⟩) ∧
    (addr.toNat < 32768 → ∃ v, memRead s addr = .ok v ∧
      v.toNat = (s.mem.readByte (2 * addr.toNat + 1)).toNat * 256 + (s.mem.readByte (2 * addr.toNat)).toNat)

/-- Rule R53, `MemWrite`: the cell becomes the value, all 16 bits, low byte first, and nothing else changes.
The premise is the canonical form of memory, which every step keeps (Obligations.StepKeepsInvariant). -/
def Obligations.MemWriteRule : Prop :=
  ∀ (s : State) (addr v : Word), s.mem.wf →
    (32768 ≤ addr.toNat → memWrite s addr v = .error ⟨.outOfBounds, addr⟩) ∧
    (addr.toNat < 32768 → ∃ t, memWrite s addr v = .ok t ∧
      memRead t addr = .ok v ∧ (∀ q, q ≠ addr → memRead t q = memRead s q) ∧
      (t.mem.readByte (2 * addr.toNat)).toNat = v.toNat % 256 ∧
      (t.mem.readByte (2 * addr.toNat + 1)).toNat = v.toNat / 256 ∧
      (∀ q, q ≠ 2 * addr.toNat → q ≠ 2 * addr.toNat + 1 → t.mem.readByte q = s.mem.readByte q) ∧
      t.pc = s.pc ∧ s.onlyChanges t [.mem])

/-- Two memories in canonical form that read alike at every byte are the same data. -/
def Obligations.SameBytesSameMemory : Prop :=
  ∀ m n : Memory, m.wf → n.wf → (∀ a, m.readByte a = n.readByte a) → m = n

/-- The raw image accessor (rules R51 and R65): 65536 bytes, each word's low byte first; loaded again it is the
same memory. -/
def Obligations.RawImageReloads : Prop :=
  ∀ m : Memory, m.wf →
    m.image.length = 65536 ∧
    (∀ n, n < 32768 →
      (m.image[2 * n]?.map BitVec.toNat = some ((m.readWord n).toNat % 256)) ∧
      (m.image[2 * n + 1]?.map BitVec.toNat = some ((m.readWord n).toNat / 256))) ∧
    Memory.ofBytes 0 m.image = m

/-! ## Reset and load (spec/10_state.md, spec/70_reset_and_hazards.md) -/

/-- The state after reset (rule R36). That memory outside the image is 0, that the machine runs and that no
fault is recorded are the spec's decisions D12, D8 and D7. -/
def Obligations.ResetState : Prop :=
  (∀ a, State.reset.mem.readWord a = 0) ∧ (∀ r, State.reset.getReg r = 0) ∧ State.reset.pc = 0 ∧
  State.reset.stack = [] ∧ State.reset.running = true ∧ State.reset.fault = none ∧
  State.reset.inbuf = [] ∧ State.reset.output = []

/-- The invariant holds at reset. -/
def Obligations.ResetMeetsInvariant : Prop := State.reset.Inv

/-- Loading a program image (rules R36, R261, R263): word `n` is `B[2n] + 256 * B[2n+1]`, bytes beyond the image
being 0 (the spec's decision D12), the Input Buffer holds the scripted input, and everything else is as after
reset; an image of more than 65536 bytes is refused. -/
def Obligations.LoadImagePlacesWords : Prop :=
  ∀ (image : List Byte) (script : Option (List Byte)),
    (image.length ≤ 65536 → ∃ t, loadImage image script = .next t ∧
      (∀ n, n < 32768 →
        (t.mem.readWord n).toNat = (image.getD (2 * n) 0).toNat + 256 * (image.getD (2 * n + 1) 0).toNat) ∧
      t.inbuf = script.getD [] ∧ t.pc = 0 ∧ State.reset.onlyChanges t [.mem, .inbuf] ∧ t.Inv) ∧
    (65536 < image.length → loadImage image script = .refused .imageTooLong)

/-! ## System (spec/41_system.md) -/

/-- Rule R121, `noop`: only the Program Counter changes; past the last word the next fetch faults, with no wrap. -/
def Obligations.NoopRule : Prop :=
  (∀ rest, decode (21 :: rest) = .ok .noop) ∧
  ∀ s : State, ∃ t, exec .noop s = .next t ∧ t.pc = s.pc + 1 ∧ s.onlyChanges t [] ∧ t.FetchIsChecked

/-- `halt` (rule R120): the running flag is cleared and nothing else changes; with no fault recorded before, the
state is halted. The Program Counter of the halted state is not stated: it is the spec's decision D9. -/
def Obligations.HaltRule : Prop :=
  (∀ rest, decode (0 :: rest) = .ok .halt) ∧
  ∀ s : State, ∃ t, exec .halt s = .next t ∧ t.running = false ∧ s.onlyChanges t [.running] ∧
    (s.fault = none → t.Halted)

/-! ## Move and stack (spec/42_move_stack.md) -/

/-- Rule R130, `set a b`: all 16 bits of the value. -/
def Obligations.SetRule : Prop := RuleRV 1 .set (fun y => y)

/-- Rule R131, `push a`. -/
def Obligations.PushRule : Prop :=
  EncodedOne 2 .val .push ∧
  ∀ (a : Operand) (s : State), a.legal .val = true →
    ∃ t, exec (.push a) s = .next t ∧ t.stack = s.valueOf a :: s.stack ∧ t.pc = s.pc + 2 ∧
      s.onlyChanges t [.stack]

/-- Rule R132, `pop a`: the top of the stack into the register; StackUnderflow(0) on an empty stack, after the
operand's own checks. -/
def Obligations.PopRule : Prop :=
  EncodedOne 3 .reg .pop ∧
  ∀ (a : Operand) (s : State), a.legal .reg = true →
    (s.stack = [] → exec (.pop a) s = raise ⟨.stackUnderflow, 0⟩ s) ∧
    ∀ v rest, s.stack = v :: rest →
      ∃ t, exec (.pop a) s = .next t ∧ t.getReg (regOf a) = v ∧
        (∀ r, r ≠ regOf a → t.getReg r = s.getReg r) ∧ t.stack = rest ∧ t.pc = s.pc + 2 ∧
        s.onlyChanges t [.regs, .stack]

/-! ## Compare (spec/43_compare.md) -/

/-- `eq a b c` (rule R140), on all 16 bits of both values; that values of 32768 and more are compared as they are
is the spec's decision D2. -/
def Obligations.EqRule : Prop := RuleRVV 4 .eq (fun y z => if y = z then 1 else 0)

/-- `gt a b c` (rule R141), unsigned on all 16 bits (decision D2 for values of 32768 and more). -/
def Obligations.GtRule : Prop := RuleRVV 5 .gt (fun y z => if y > z then 1 else 0)

/-! ## Control transfer (spec/44_control.md) -/

/-- Rule R151, `jmp a`: the target is the operand's value, loaded as it is; the next fetch checks it. -/
def Obligations.JmpRule : Prop :=
  EncodedOne 6 .val .jmp ∧
  ∀ (a : Operand) (s : State), a.legal .val = true →
    ∃ t, exec (.jmp a) s = .next t ∧ t.pc = s.valueOf a ∧ s.onlyChanges t [] ∧ t.FetchIsChecked

/-- `jt a b` (rule R152). That the target slot is resolved, and can fault, when the jump is not taken is the spec's
decision D5. -/
def Obligations.JtRule : Prop :=
  EncodedVV 7 .jt ∧
  ∀ (a b : Operand) (s : State), a.legal .val = true → b.legal .val = true →
    ∃ t, exec (.jt a b) s = .next t ∧
      ((s.valueOf a).toNat ≠ 0 → t.pc = s.valueOf b) ∧
      ((s.valueOf a).toNat = 0 → t.pc = s.pc + 3) ∧ s.onlyChanges t []

/-- `jf a b` (rule R153; decision D5 as for `jt`). -/
def Obligations.JfRule : Prop :=
  EncodedVV 8 .jf ∧
  ∀ (a b : Operand) (s : State), a.legal .val = true → b.legal .val = true →
    ∃ t, exec (.jf a b) s = .next t ∧
      ((s.valueOf a).toNat = 0 → t.pc = s.valueOf b) ∧
      ((s.valueOf a).toNat ≠ 0 → t.pc = s.pc + 3) ∧ s.onlyChanges t []

/-- Rule R154, `call a`: the address after the instruction's own operand is pushed, and the target loaded. -/
def Obligations.CallRule : Prop :=
  EncodedOne 17 .val .call ∧
  ∀ (a : Operand) (s : State), a.legal .val = true →
    ∃ t, exec (.call a) s = .next t ∧ t.stack = (s.pc + 2) :: s.stack ∧ t.pc = s.valueOf a ∧
      s.onlyChanges t [.stack]

/-- `ret` (rule R155): the top of the stack into the Program Counter; on an empty stack a clean halt, whose
Program Counter is not stated (the spec's decision D9). -/
def Obligations.RetRule : Prop :=
  (∀ rest, decode (18 :: rest) = .ok .ret) ∧
  ∀ s : State,
    (∀ v rest, s.stack = v :: rest →
      ∃ t, exec .ret s = .next t ∧ t.pc = v ∧ t.stack = rest ∧ s.onlyChanges t [.stack] ∧
        t.FetchIsChecked) ∧
    (s.stack = [] →
      ∃ t, exec .ret s = .next t ∧ t.running = false ∧ s.onlyChanges t [.running] ∧ (s.fault = none → t.Halted))

/-! ## Arithmetic and logic (spec/45_arith_logic.md); values of 32768 and more: rule R177, decision D2 -/

/-- `add a b c` (rule R171; decision D2 for values of 32768 and more). -/
def Obligations.AddRule : Prop := RuleRVV 9 .add (fun y z => (y + z) % 32768)

/-- `mult a b c` (rule R172; decision D2 for values of 32768 and more): the exact product, reduced once. -/
def Obligations.MultRule : Prop := RuleRVV 10 .mult (fun y z => (y * z) % 32768)

/-- `mod a b c` (rule R173): the unsigned remainder; the fault DivideByZero(0) on a zero divisor is the spec's
decision D3. -/
def Obligations.ModRule : Prop :=
  (∀ wa wb wc rest, decode (11 :: wa :: wb :: wc :: rest) =
    .ok (.mod (classify wa) (classify wb) (classify wc))) ∧
  ∀ a b c, RaisesOperandFaults (.mod a b c) [(.reg, a), (.val, b), (.val, c)] ∧
    ∀ s : State, a.legal .reg = true → b.legal .val = true → c.legal .val = true →
      ((s.valueOf c).toNat = 0 → exec (.mod a b c) s = raise ⟨.divideByZero, 0⟩ s) ∧
      ((s.valueOf c).toNat ≠ 0 →
        CompletesWriting (.mod a b c) s (regOf a) ((s.valueOf b).toNat % (s.valueOf c).toNat) 4 [])

/-- `and a b c` (rule R174; decision D2 for values of 32768 and more): bit by bit, all 16 bits. -/
def Obligations.AndRule : Prop :=
  RuleRVV 12 .and (fun y z => y &&& z) ∧
  ∀ (a b c : Operand) (s : State), a.legal .reg = true → b.legal .val = true → c.legal .val = true →
    ∃ t, exec (.and a b c) s = .next t ∧
      ∀ i, i < 16 → (t.getReg (regOf a)).getLsbD i = ((s.valueOf b).getLsbD i && (s.valueOf c).getLsbD i)

/-- `or a b c` (rule R175; decision D2 for values of 32768 and more): bit by bit, all 16 bits. -/
def Obligations.OrRule : Prop :=
  RuleRVV 13 .or (fun y z => y ||| z) ∧
  ∀ (a b c : Operand) (s : State), a.legal .reg = true → b.legal .val = true → c.legal .val = true →
    ∃ t, exec (.or a b c) s = .next t ∧
      ∀ i, i < 16 → (t.getReg (regOf a)).getLsbD i = ((s.valueOf b).getLsbD i || (s.valueOf c).getLsbD i)

/-- `not a b` (rule R176; decision D2 for values of 32768 and more): bits 14 to 0 inverted, bit 15
cleared; 32767 less the value where that is in range. -/
def Obligations.NotRule : Prop :=
  RuleRV 14 .not (fun y => 32767 - y % 32768) ∧
  ∀ (a b : Operand) (s : State), a.legal .reg = true → b.legal .val = true →
    ∃ t, exec (.not a b) s = .next t ∧
      (∀ i, i < 15 → (t.getReg (regOf a)).getLsbD i = !(s.valueOf b).getLsbD i) ∧
      (t.getReg (regOf a)).getLsbD 15 = false

/-! ## Memory instructions (spec/46_memory_ops.md) -/

/-- Rule R191, `rmem a b`: the cell whose address is the value of `b`, all 16 bits of it; OutOfBounds(address) from
32768 up. -/
def Obligations.RmemRule : Prop :=
  (∀ wa wb rest, decode (15 :: wa :: wb :: rest) = .ok (.rmem (classify wa) (classify wb))) ∧
  ∀ a b, RaisesOperandFaults (.rmem a b) [(.reg, a), (.val, b)] ∧
    ∀ s : State, a.legal .reg = true → b.legal .val = true →
      (32768 ≤ (s.valueOf b).toNat → exec (.rmem a b) s = raise ⟨.outOfBounds, s.valueOf b⟩ s) ∧
      ((s.valueOf b).toNat < 32768 →
        CompletesWriting (.rmem a b) s (regOf a) (s.mem.readWord (s.valueOf b).toNat).toNat 3 [])

/-- Rule R192, `wmem a b`: the cell whose address is the value of `a` becomes the value of `b`, all 16 bits, and every
byte outside that cell stays; OutOfBounds(address) from 32768 up. The premise is the canonical form of memory. -/
def Obligations.WmemRule : Prop :=
  EncodedVV 16 .wmem ∧
  ∀ (a b : Operand) (s : State), a.legal .val = true → b.legal .val = true →
    (32768 ≤ (s.valueOf a).toNat → exec (.wmem a b) s = raise ⟨.outOfBounds, s.valueOf a⟩ s) ∧
    ((s.valueOf a).toNat < 32768 → s.mem.wf →
      ∃ t, exec (.wmem a b) s = .next t ∧
        t.mem.readWord (s.valueOf a).toNat = s.valueOf b ∧
        (∀ q, q ≠ 2 * (s.valueOf a).toNat → q ≠ 2 * (s.valueOf a).toNat + 1 →
          t.mem.readByte q = s.mem.readByte q) ∧
        t.pc = s.pc + 3 ∧ s.onlyChanges t [.mem])

/-! ## Input and output (spec/47_io.md) -/

/-- `out a` (rules R200 and R204): one byte after those emitted before; that it is the low 8 bits, and that the sink
always takes it, are the spec's decisions D19 and D22. -/
def Obligations.OutRule : Prop :=
  EncodedOne 19 .val .out ∧
  ∀ (a : Operand) (s : State), a.legal .val = true →
    ∃ t b, exec (.out a) s = .next t ∧ t.output = s.output ++ [b] ∧ b.toNat = (s.valueOf a).toNat % 256 ∧
      t.pc = s.pc + 2 ∧ s.onlyChanges t [.output]

/-- `in a` served from the Input Buffer (rules R201 and R203): its front byte, with no escape test, zero-extended
(the spec's decision D20); a faulting `in` consumes nothing (decision D13). -/
def Obligations.InFromInputBuffer : Prop :=
  EncodedOne 20 .reg .in_ ∧
  ∀ (a : Operand) (s : State) (b : Byte) (rest : List Byte), a.legal .reg = true → s.inbuf = b :: rest →
    ∃ t, exec (.in_ a) s = .next t ∧ (t.getReg (regOf a)).toNat = b.toNat ∧
      (∀ r, r ≠ regOf a → t.getReg r = s.getReg r) ∧ t.inbuf = rest ∧ t.pc = s.pc + 2 ∧
      s.onlyChanges t [.regs, .inbuf]

/-- What a debug command does to the Machine State and what it reports (rules R235, R236 and R240): `set` with a register
index of 0 to 7 and a 16-bit value writes that register; every other command, and a `set` with other arguments, changes
nothing. The no-ops of rule R240 are reported, and only they: a file that exists already, a line that is no command, a
`set` with arguments out of range (the last two by the spec's decisions D14 and D15). -/
def Obligations.DebugCommandEffect : Prop :=
  ∀ (s : State) (c : DebugCommand),
    (∀ (r : Fin 8) (v : Word), c = .set r.val v.toNat →
      (s.runCommand c).getReg r = v ∧ (∀ q, q ≠ r → (s.runCommand c).getReg q = s.getReg q) ∧
      (s.runCommand c).pc = s.pc ∧ s.onlyChanges (s.runCommand c) [.regs]) ∧
    ((∀ (r : Fin 8) (v : Word), c ≠ .set r.val v.toNat) → s.runCommand c = s) ∧
    ∀ fileExists : String → Bool,
      ((debugReport fileExists s c).isNoOp = true ↔
        (∃ path, (c = .save path ∨ c = .exportTo path) ∧ fileExists path = true) ∨
        (∃ line, c = .malformed line) ∨
        ∃ r v, c = .set r v ∧ (8 ≤ r ∨ 65536 ≤ v)) ∧
      ((debugReport fileExists s c).isNoOp = true → s.runCommand c = s)

/-- `in a` with an empty Input Buffer (rules R201, R203, R205, R206, R236): a byte of the interactive stream other than
the escape byte is delivered, zero-extended (decision D20); the escape byte makes the adapter consume the whole line
after it, however its bytes have arrived, and run it as a debug command (Obligations.DebugCommandEffect), and the `in`
is left to be taken again; while nothing has arrived, or an escape byte whose line has not ended, nothing changes.
For every delivery of the interactive stream, the model's own field `stream`, in which the environment says which
bytes end a line and what the line parses to (log entries 2 and 5). -/
def Obligations.InFromInteractiveStream : Prop :=
  ∀ (a : Operand) (s : State), a.legal .reg = true → s.inbuf = [] →
    (∀ e rest, s.stream = e :: rest → e.value ≠ Config.escapeByte →
      ∃ t, exec (.in_ a) s = .next t ∧ (t.getReg (regOf a)).toNat = e.value.toNat ∧
        (∀ r, r ≠ regOf a → t.getReg r = s.getReg r) ∧ t.stream = rest ∧ t.pc = s.pc + 2 ∧
        s.onlyChanges t [.regs, .stream]) ∧
    (∀ c rest, CommandAt s.stream c rest →
      ∃ t, exec (.in_ a) s = .next t ∧ t.stream = rest ∧ t.pc = s.pc ∧ s.onlyChanges t [.regs, .stream] ∧
        ∀ q, t.getReg q = (s.runCommand c).getReg q) ∧
    (AwaitsDelivery s.stream → exec (.in_ a) s = .next s)

/-- A core blocked in `in` (rules R205 and R206) takes a step that changes nothing. The environment lifts the block and
nothing else does: a byte other than the escape byte completes the `in`; the escape byte, and each byte of the line
after it, leave the core waiting; the byte that ends the line makes the next step run the command, after which the
core waits again in the same `in`. -/
def Obligations.WaitingChangesNothing : Prop :=
  ∀ s : State, s.Waiting →
    step s = .next s ∧ s.running = true ∧
    (s.stream = [] → ∀ e, e.value ≠ Config.escapeByte → ∀ r, fetch s = .ok (.in_ (.reg r)) →
      ∃ t, step (s.deliver e) = .next t ∧ (t.getReg r).toNat = e.value.toNat ∧ t.pc = s.pc + 2 ∧
        t.stream = []) ∧
    (s.stream = [] → ∀ e, e.value = Config.escapeByte → (s.deliver e).Waiting) ∧
    (s.stream ≠ [] → ∀ b, (s.deliver (.byte b)).Waiting) ∧
    (s.stream ≠ [] → ∀ b c,
      ∃ t, step (s.deliver (.lineEnd b c)) = .next t ∧ t.Waiting ∧ t.stream = [] ∧ t.pc = s.pc ∧
        s.onlyChanges t [.regs, .stream] ∧ ∀ q, t.getReg q = (s.runCommand c).getReg q)

/-! ## The step and its faults (spec/40_execution_cycle.md, spec/60_exceptions.md) -/

/-- Taking a fault (rules R106 and R229; the form of the record and the absence of partial effects are the spec's
decisions D6 and D7): the record, the running flag, and nothing else. -/
def Obligations.FaultIsRecorded : Prop :=
  ∀ (f : Trap) (s : State), ∃ t, raise f s = .next t ∧ t.fault = some ⟨f.kind, s.pc, f.value⟩ ∧
    t.running = false ∧ t.pc = s.pc ∧ s.onlyChanges t [.running, .fault]

/-- A running machine executes the instruction that the words at the Program Counter decode to; the words are
those of the Address Space from there on, as far as it reaches (rules R101, R102, R108). -/
def Obligations.StepRunsDecodedInstruction : Prop :=
  ∀ s : State,
    (∀ i, s.running = true → decode s.fetchWords = .ok i → step s = exec i s) ∧
    ∀ k, k < 4 → s.fetchWords[k]? =
      if s.pc.toNat + k < 32768 then some (s.mem.readWord (s.pc.toNat + k)) else none

/-- The operand faults of an instruction come before everything else it does, and the first in the order of the slots
is taken (rules R103, R104 and R106; the order is the spec's decision D5). -/
def Obligations.OperandFaultsInOrder : Prop :=
  ∀ (i : Instr) (s : State) (f : Trap), s.operandFault 1 i.slots = some f →
    f ∈ s.operandFaults 1 i.slots ∧ exec i s = .next (s.takeFault f)

/-- The checks of a step (rules R103, R104 and R228; their order is the spec's decision D5), written over the
words of memory alone: the first that fails gives the fault the step takes, and where none fails it takes none. -/
def Obligations.StepChecksInOrder : Prop :=
  ∀ s : State, s.running = true →
    (∀ f, s.failedCheck = some f → step s = .next (s.takeFault f)) ∧
    (s.failedCheck = none → ∃ t, step s = .next t ∧ t.fault = s.fault)

/-- No instruction stops the machine without a next state, and the core takes a step exactly when the running flag
is true (rules R100 and R110). -/
def Obligations.RunningMachineSteps : Prop :=
  (∀ (i : Instr) (s : State), ∃ t, exec i s = .next t) ∧
  ∀ s : State, (s.running = true ↔ ∃ t, step s = .next t) ∧
    (s.running = false ↔ step s = .fault .terminal)

/-- Every step keeps the invariant: memory in canonical form, and a recorded fault sound (its value as rule R220's
table says for its kind), final, and recorded at the Program Counter the machine still shows (rules R28, R106). -/
def Obligations.StepKeepsInvariant : Prop :=
  ∀ s t : State, s.Inv → step s = .next t → t.Inv

/-- A run ends only by `halt`, by `ret` on an empty stack, or by a fault (rules R27 and R110), and a clean end
records no fault. -/
def Obligations.RunEndsOnlyByHaltRetOrFault : Prop :=
  ∀ s t : State, step s = .next t → t.running = false →
    (fetch s = .ok .halt ∧ t.fault = s.fault) ∨
    (fetch s = .ok .ret ∧ s.stack = [] ∧ t.fault = s.fault) ∨
    ∃ f, s.failedCheck = some f ∧ t = s.takeFault f

/-- A faulting instruction has no partial effect (rule R106, decision D6): whenever an instruction changes the fault
record, it has taken a fault and done nothing else. -/
def Obligations.FaultHasNoPartialEffect : Prop :=
  ∀ (i : Instr) (s t : State), exec i s = .next t → t.fault ≠ s.fault →
    ∃ f, t = s.takeFault f ∧ t.running = false ∧ t.pc = s.pc ∧ s.onlyChanges t [.running, .fault]

/-! ## What the whole machine can change -/

/-- Only a reg operand's register is written, by the instructions that have one, and beside that only the register of
a debug `set` that a blocked `in` meets (rules R22 and R236). -/
def Obligations.RegisterWriters : Prop :=
  ∀ (i : Instr) (s t : State) (r : Fin 8), exec i s = .next t → t.getReg r ≠ s.getReg r →
    (∃ rest, i.slots = (.reg, .reg r) :: rest) ∨
    (∃ d v rest, i = .in_ (.reg d) ∧ s.inbuf = [] ∧ CommandAt s.stream (.set r.val v) rest ∧
      v < 65536 ∧ t.getReg r = BitVec.ofNat 16 v)

/-- Only `wmem` changes a byte of the Address Space, and only the two bytes of the cell it addresses (rules R53, R57
and R66). The premise is the canonical form of memory. -/
def Obligations.MemoryWriters : Prop :=
  ∀ (i : Instr) (s t : State) (q : Nat), s.mem.wf → exec i s = .next t →
    t.mem.readByte q ≠ s.mem.readByte q →
    ∃ a b, i = .wmem a b ∧ (s.valueOf a).toNat < 32768 ∧
      (q = 2 * (s.valueOf a).toNat ∨ q = 2 * (s.valueOf a).toNat + 1)

/-- The stack is last-in first-out: `push` and `call` put one word on top, `pop` and `ret` take one, and no other
instruction touches it (rules R26 and R63). -/
def Obligations.StackDiscipline : Prop :=
  ∀ (i : Instr) (s t : State), exec i s = .next t → t.stack ≠ s.stack →
    (∃ a, i = .push a ∧ t.stack = s.valueOf a :: s.stack) ∨
    (∃ a, i = .call a ∧ t.stack = (s.pc + 2) :: s.stack) ∨
    (∃ a, i = .pop a ∧ s.stack = t.getReg (regOf a) :: t.stack) ∨
    (i = .ret ∧ s.stack = t.pc :: t.stack)

/-- Input is consumed only by `in`, one byte or one command line with its escape byte at a time, the Input Buffer before
the interactive stream; output is appended to only by `out`, one byte at a time (rules R29, R30, R203, R204, R208). -/
def Obligations.InputOutputDiscipline : Prop :=
  ∀ (i : Instr) (s t : State), exec i s = .next t →
    (t.inbuf ≠ s.inbuf → ∃ a b, i = .in_ a ∧ s.inbuf = b :: t.inbuf ∧ t.stream = s.stream) ∧
    (t.stream ≠ s.stream → ∃ a, i = .in_ a ∧ s.inbuf = [] ∧
      ((∃ e, e.value ≠ Config.escapeByte ∧ s.stream = e :: t.stream) ∨ ∃ c, CommandAt s.stream c t.stream)) ∧
    (t.output ≠ s.output → ∃ a b, i = .out a ∧ t.output = s.output ++ [b])

/-- How the Program Counter changes when no fault is taken (rules R24 and R105): it never wraps around, and only the
five control transfers and a waiting `in` do not advance past the instruction. `halt` and `ret` on an empty stack are
left out (the spec's decision D9). -/
def Obligations.ProgramCounterChange : Prop :=
  ∀ (i : Instr) (s t : State), s.pc.toNat < 32768 → s.fault = none → exec i s = .next t → t.fault = none →
    match i with
    | .halt => True
    | .jmp a => t.pc = s.valueOf a
    | .call a => t.pc = s.valueOf a
    | .jt a b =>
      if s.valueOf a = 0 then t.pc.toNat = s.pc.toNat + 3 else t.pc = s.valueOf b
    | .jf a b =>
      if s.valueOf a = 0 then t.pc = s.valueOf b else t.pc.toNat = s.pc.toNat + 3
    | .ret => ∀ v rest, s.stack = v :: rest → t.pc = v
    | .in_ _ => t.pc.toNat = s.pc.toNat + 2 ∨ t.pc = s.pc ∧ s.inbuf = []
    | _ => t.pc.toNat = s.pc.toNat + i.words

/-- The range of what an instruction computes (rules R32, R142, R178; for inputs of 32768 and more with the spec's
decision D2). -/
def Obligations.ComputedRange : Prop :=
  ∀ (i : Instr) (s t : State), i.wf = true → exec i s = .next t →
    match i with
    | .eq a _ _ => t.getReg (regOf a) = 0 ∨ t.getReg (regOf a) = 1
    | .gt a _ _ => t.getReg (regOf a) = 0 ∨ t.getReg (regOf a) = 1
    | .add a _ _ => (t.getReg (regOf a)).toNat < 32768
    | .mult a _ _ => (t.getReg (regOf a)).toNat < 32768
    | .not a _ => (t.getReg (regOf a)).toNat < 32768
    | .and a b c =>
      (t.getReg (regOf a)).toNat ≤ (s.valueOf b).toNat ∧ (t.getReg (regOf a)).toNat ≤ (s.valueOf c).toNat
    | .or a b c =>
      (s.valueOf b).toNat ≤ (t.getReg (regOf a)).toNat ∧ (s.valueOf c).toNat ≤ (t.getReg (regOf a)).toNat ∧
      ((s.valueOf b).toNat < 32768 → (s.valueOf c).toNat < 32768 → (t.getReg (regOf a)).toNat < 32768)
    | .mod a b c => (s.valueOf c).toNat ≠ 0 →
      (t.getReg (regOf a)).toNat < (s.valueOf c).toNat ∧ (t.getReg (regOf a)).toNat ≤ (s.valueOf b).toNat
    | _ => True

/-! ## Programs of two instructions, for every state -/

/-- `not` twice gives back a value below 32768 (spec/45_arith_logic.md rules R170 and R176). -/
def Obligations.NotTwiceRestores : Prop :=
  ∀ (s t u : State) (d e r : Fin 8), (s.getReg r).toNat < 32768 →
    exec (.not (.reg d) (.reg r)) s = .next t → exec (.not (.reg e) (.reg d)) t = .next u →
    u.getReg e = s.getReg r

/-- A `ret` that finds the stack as its `call` left it resumes after the `call`, with the stack as before it
(spec/44_control.md rules R154, R155 and R157). -/
def Obligations.CallThenRetResumes : Prop :=
  ∀ (a : Operand) (s t u v : State), a.legal .val = true →
    exec (.call a) s = .next t → u.stack = t.stack → exec .ret u = .next v →
    v.pc = s.pc + 2 ∧ v.stack = s.stack ∧ v.running = u.running

/-- `rmem` after `wmem` at the same address loads the word that was stored, all 16 bits of it (spec/46_memory_ops.md
rules R191 and R192; for words of 32768 and more the spec's decision D1). -/
def Obligations.LoadAfterStore : Prop :=
  ∀ (a b : Operand) (d : Fin 8) (s t u : State), s.mem.wf → a.legal .val = true → b.legal .val = true →
    (s.valueOf a).toNat < 32768 → exec (.wmem a b) s = .next t → exec (.rmem (.reg d) a) t = .next u →
    u.getReg d = s.valueOf b

/-- A store into the instruction that follows is seen by the very next fetch (spec/20_memory.md rule R62). -/
def Obligations.StoreSeenByNextFetch : Prop :=
  ∀ (a b : Operand) (s t : State), s.mem.wf → s.running = true → s.pc.toNat + 3 < 32768 →
    fetch s = .ok (.wmem a b) → a.legal .val = true → b.legal .val = true →
    (s.valueOf a).toNat = s.pc.toNat + 3 → step s = .next t →
    t.running = true ∧ t.fetchWords.head? = some (s.valueOf b)

/-! ## Snapshots (spec/60_exceptions.md rule R237, spec/70_reset_and_hazards.md rule R262) -/

/-- A snapshot holds every component of the Machine State (rules R20 and R237). Loading one takes the six that rule
R262 names as they are, unchecked, and leaves the fault record absent (the spec's decisions D21 and D7); the output
record starts empty (log entry 22). A script given beside it is refused (log entry 21). -/
def Obligations.SnapshotHoldsMachineState : Prop :=
  (∀ s : State, s.snapshot.mem = s.mem ∧ s.snapshot.x = s.x ∧ s.snapshot.pc = s.pc ∧ s.snapshot.stack = s.stack ∧
    s.snapshot.running = s.running ∧ s.snapshot.fault = s.fault ∧ s.snapshot.inbuf = s.inbuf) ∧
  (∀ p : Snapshot, ∃ u, loadSnapshot p none = .next u ∧ u.snapshot = { p with fault := none } ∧ u.output = []) ∧
  ∀ (p : Snapshot) (script : List Byte), loadSnapshot p (some script) = .refused .scriptWithSnapshot

/-- A session resumed from its snapshot goes on as the original does: given the same deliveries of the interactive
stream, after any number of steps it has emitted the bytes that the original has emitted since, and its state is
the same in all else. -/
def Obligations.SnapshotResumes : Prop :=
  ∀ (s u t : State) (k : Nat), s.fault = none → loadSnapshot s.snapshot none = .next u →
    Host.Core.run Sys2Proof.core k s = .next t →
    ∃ emitted, t.output = s.output ++ emitted ∧
      Host.Core.run Sys2Proof.core k { u with stream := s.stream } = .next { t with output := emitted }
end

