-- ==== Sys2Proof/Laws/Decode.lean ====
section
/-! SUPPORT. Operand slots and byte lists: the small lemmas of the decoder and the encoder. -/

namespace Sys2Proof

/-! ## One slot -/

theorem classify_lit {raw : Word} (h : raw.toNat < 32768) : classify raw = .lit (raw.setWidth 15) := by
  simp [classify, Config.regBase, h]

theorem classify_reg {raw : Word} (r : Fin 8) (h : raw.toNat = 32768 + r.val) : classify raw = .reg r := by
  have hr := r.isLt
  have h1 : ¬ raw.toNat < Config.regBase := by simp only [Config.regBase]; omega
  have h2 : raw.toNat < Config.regBase + Config.numRegs := by
    simp only [Config.regBase, Config.numRegs]; omega
  have h3 : raw.toNat - Config.regBase = r.val := by simp only [Config.regBase]; omega
  rw [classify, if_neg h1, if_pos h2, h3]
  simp

theorem classify_invalid {raw : Word} (h : 32776 ≤ raw.toNat) : classify raw = .invalid raw := by
  have h1 : ¬ raw.toNat < Config.regBase := by simp only [Config.regBase]; omega
  have h2 : ¬ raw.toNat < Config.regBase + Config.numRegs := by
    simp only [Config.regBase, Config.numRegs]; omega
  rw [classify, if_neg h1, if_neg h2]

/-- A word is a literal, a register reference or invalid (spec/00_scope.md rule R8). -/
theorem word_cases (raw : Word) :
    raw.toNat < 32768 ∨ (∃ r : Fin 8, raw.toNat = 32768 + r.val) ∨ 32776 ≤ raw.toNat := by
  by_cases h1 : raw.toNat < 32768
  · exact .inl h1
  · by_cases h2 : raw.toNat < 32776
    · exact .inr (.inl ⟨⟨raw.toNat - 32768, by omega⟩, by simp only; omega⟩)
    · exact .inr (.inr (by omega))

theorem lit_toNat {raw : Word} (h : raw.toNat < 32768) : (raw.setWidth 15).setWidth 16 = raw := by
  apply BitVec.eq_of_toNat_eq
  simp only [BitVec.toNat_setWidth]
  omega

/-- The word of a classified word is the word itself. -/
theorem encodeSlot_classify (raw : Word) : encodeSlot (classify raw) = [raw] := by
  rcases word_cases raw with h | ⟨r, h⟩ | h
  · rw [classify_lit h, encodeSlot, lit_toNat h]
  · rw [classify_reg r h, encodeSlot]
    congr 1
    apply BitVec.eq_of_toNat_eq
    have := r.isLt
    simp only [Config.regBase, BitVec.toNat_ofNat]
    omega
  · rw [classify_invalid h, encodeSlot]

theorem classify_classified (raw : Word) : (classify raw).classified = true := by
  rcases word_cases raw with h | ⟨r, h⟩ | h
  · rw [classify_lit h]; rfl
  · rw [classify_reg r h]; rfl
  · rw [classify_invalid h]; simpa [Operand.classified] using h

/-- A legal operand is one word, which classifies as the operand. -/
theorem encodeSlot_legal {kind : SlotKind} {o : Operand} (h : o.legal kind = true) :
    ∃ raw, encodeSlot o = [raw] ∧ classify raw = o := by
  cases o with
  | lit v =>
    refine ⟨v.setWidth 16, rfl, ?_⟩
    have hv := v.isLt
    have ht : (v.setWidth 16).toNat = v.toNat := by simp only [BitVec.toNat_setWidth]; omega
    rw [classify_lit (by omega)]
    congr 1
    apply BitVec.eq_of_toNat_eq
    simp only [BitVec.toNat_setWidth]
    omega
  | reg r =>
    refine ⟨_, rfl, classify_reg r ?_⟩
    have := r.isLt
    simp only [Config.regBase, BitVec.toNat_ofNat]
    omega
  | invalid raw => cases kind <;> simp [Operand.legal] at h
  | absent => cases kind <;> simp [Operand.legal] at h

@[simp] theorem slotAt_nil (k : Nat) : slotAt [] k = .absent := by simp [slotAt]

@[simp] theorem slotAt_cons_zero (w : Word) (ws : List Word) : slotAt (w :: ws) 0 = classify w := by
  simp [slotAt]

@[simp] theorem slotAt_cons_succ (w : Word) (ws : List Word) (k : Nat) :
    slotAt (w :: ws) (k + 1) = slotAt ws k := by
  simp [slotAt]

/-! ## Bytes and words -/

theorem wordsOfBytes_bytesOfWords (ws : List Word) : wordsOfBytes (bytesOfWords ws) = ws := by
  induction ws with
  | nil => rfl
  | cons w ws ih =>
    have hw : wordOfBytes (lowByte w) (highByte w) = w := by
      apply BitVec.eq_of_toNat_eq
      simp only [wordOfBytes, lowByte, highByte, BitVec.toNat_append, BitVec.extractLsb'_toNat]
      have := w.isLt
      rw [← Nat.shiftLeft_add_eq_or_of_lt (by omega), Nat.shiftLeft_eq]
      simp only [Nat.shiftRight_eq_div_pow]
      omega
    rw [bytesOfWords, wordsOfBytes, ih, hw]

end Sys2Proof
end

