-- ==== Sys2Proof/Laws/Operands.lean ====
section
/-! SUPPORT. What the shared shapes of the meanings can do: on operands with a fault they take it, on legal
operands they go on with the values (spec/40_execution_cycle.md rules R103 to R107). -/

namespace Sys2Proof.Machine

variable {s : State} {a b c : Operand}

/-! ## One operand -/

theorem resolveReg_legal (k : Nat) (s : State) (h : a.legal .reg = true) : resolveReg k s a = .ok (regOf a) := by
  cases a <;> simp_all [Operand.legal, resolveReg, regOf]

theorem resolveVal_legal (k : Nat) (s : State) (h : a.legal .val = true) : resolveVal k s a = .ok (s.valueOf a) := by
  cases a <;> simp_all [Operand.legal, resolveVal, State.valueOf]

theorem resolveReg_eq (k : Nat) (s : State) (a : Operand) :
    resolveReg k s a = match s.slotFault k .reg a with | some t => .error t | none => .ok (regOf a) := by
  cases a <;> rfl

theorem resolveVal_eq (k : Nat) (s : State) (a : Operand) :
    resolveVal k s a = match s.slotFault k .val a with | some t => .error t | none => .ok (s.valueOf a) := by
  cases a <;> rfl

/-- An operand is legal exactly when resolving it raises nothing. -/
theorem slotFault_eq_none (k : Nat) (s : State) (kind : SlotKind) (a : Operand) :
    s.slotFault k kind a = none ↔ a.legal kind = true := by
  cases kind <;> cases a <;> simp [State.slotFault, Operand.legal]

/-! ## The shapes on legal operands -/

variable {rest₁ : Word → Host.Outcome State Fault Refusal}
  {restR : Fin 8 → Host.Outcome State Fault Refusal}
  {restRV : Fin 8 → Word → Host.Outcome State Fault Refusal}
  {restVV : Word → Word → Host.Outcome State Fault Refusal}
  {restRVV : Fin 8 → Word → Word → Host.Outcome State Fault Refusal}

theorem withReg_legal (k : Nat) (h : a.legal .reg = true) : withReg k a s restR = restR (regOf a) := by
  simp [withReg, resolveReg_legal k s h]

theorem withVal_legal (k : Nat) (h : a.legal .val = true) : withVal k a s rest₁ = rest₁ (s.valueOf a) := by
  simp [withVal, resolveVal_legal k s h]

theorem withRV_legal (ha : a.legal .reg = true) (hb : b.legal .val = true) :
    withRV a b s restRV = restRV (regOf a) (s.valueOf b) := by
  simp [withRV, withReg_legal 1 ha, withVal_legal 2 hb]

theorem withVV_legal (ha : a.legal .val = true) (hb : b.legal .val = true) :
    withVV a b s restVV = restVV (s.valueOf a) (s.valueOf b) := by
  simp [withVV, withVal_legal 1 ha, withVal_legal 2 hb]

theorem withRVV_legal (ha : a.legal .reg = true) (hb : b.legal .val = true) (hc : c.legal .val = true) :
    withRVV a b c s restRVV = restRVV (regOf a) (s.valueOf b) (s.valueOf c) := by
  simp [withRVV, withReg_legal 1 ha, withVal_legal 2 hb, withVal_legal 3 hc]

/-! ## The shapes in full: the first operand fault is taken, else the rest runs on the values -/

theorem withReg_eq (s : State) (a : Operand) :
    withReg 1 a s restR =
      match s.operandFault 1 [(.reg, a)] with | some t => raise t s | none => restR (regOf a) := by
  simp only [withReg, resolveReg_eq, State.operandFault]
  cases s.slotFault 1 .reg a <;> rfl

theorem withVal_eq (s : State) (a : Operand) :
    withVal 1 a s rest₁ =
      match s.operandFault 1 [(.val, a)] with | some t => raise t s | none => rest₁ (s.valueOf a) := by
  simp only [withVal, resolveVal_eq, State.operandFault]
  cases s.slotFault 1 .val a <;> rfl

theorem withRV_eq (s : State) (a b : Operand) :
    withRV a b s restRV =
      match s.operandFault 1 [(.reg, a), (.val, b)] with
      | some t => raise t s
      | none => restRV (regOf a) (s.valueOf b) := by
  simp only [withRV, withReg, withVal, resolveReg_eq, resolveVal_eq, State.operandFault]
  cases s.slotFault 1 .reg a <;> cases s.slotFault 2 .val b <;> rfl

theorem withVV_eq (s : State) (a b : Operand) :
    withVV a b s restVV =
      match s.operandFault 1 [(.val, a), (.val, b)] with
      | some t => raise t s
      | none => restVV (s.valueOf a) (s.valueOf b) := by
  simp only [withVV, withVal, resolveVal_eq, State.operandFault]
  cases s.slotFault 1 .val a <;> cases s.slotFault 2 .val b <;> rfl

theorem withRVV_eq (s : State) (a b c : Operand) :
    withRVV a b c s restRVV =
      match s.operandFault 1 [(.reg, a), (.val, b), (.val, c)] with
      | some t => raise t s
      | none => restRVV (regOf a) (s.valueOf b) (s.valueOf c) := by
  simp only [withRVV, withReg, withVal, resolveReg_eq, resolveVal_eq, State.operandFault]
  cases s.slotFault 1 .reg a <;> cases s.slotFault 2 .val b <;> cases s.slotFault 3 .val c <;> rfl

/-! ## Memory, stack and input -/

theorem memRead_of_lt {addr : Word} (s : State) (h : addr.toNat < 32768) :
    memRead s addr = .ok (s.mem.readWord addr.toNat) := by
  simp [memRead, Config.memWords, h]

theorem memRead_of_ge {addr : Word} (s : State) (h : 32768 ≤ addr.toNat) :
    memRead s addr = .error ⟨.outOfBounds, addr⟩ := by
  simp [memRead, Config.memWords, Nat.not_lt.2 h]

theorem memWrite_of_lt {addr : Word} (s : State) (v : Word) (h : addr.toNat < 32768) :
    memWrite s addr v = .ok { s with mem := s.mem.writeWord addr.toNat v } := by
  simp [memWrite, Config.memWords, h]

theorem memWrite_of_ge {addr : Word} (s : State) (v : Word) (h : 32768 ≤ addr.toNat) :
    memWrite s addr v = .error ⟨.outOfBounds, addr⟩ := by
  simp [memWrite, Config.memWords, Nat.not_lt.2 h]

/-- What `Pop` can do (spec/10_state.md rule R26). -/
theorem pop?_cases (s : State) :
    s.stack = [] ∧ s.pop? = none ∨
      ∃ v rest, s.stack = v :: rest ∧ s.pop? = some (v, { s with stack := rest }) := by
  unfold State.pop?
  cases h : s.stack with
  | nil => exact .inl ⟨rfl, rfl⟩
  | cons v rest => exact .inr ⟨v, rest, rfl, rfl⟩

/-- Bytes none of which ends a line are no line. -/
theorem readLine_bytes (line : List Byte) : readLine (line.map .byte) = none := by
  induction line with
  | nil => rfl
  | cons b line ih => exact ih

/-- A line ends at its first byte that ends one. -/
theorem readLine_line (line : List Byte) (b : Byte) (c : DebugCommand) (rest : List StreamItem) :
    readLine (line.map .byte ++ .lineEnd b c :: rest) = some (c, rest) := by
  induction line with
  | nil => rfl
  | cons b line ih => exact ih

/-- Any deliveries are a part of a line, or begin with a whole one. -/
theorem readLine_cases (l : List StreamItem) :
    (∃ line : List Byte, l = line.map .byte) ∨
      ∃ (line : List Byte) (b : Byte) (c : DebugCommand) (rest : List StreamItem),
        l = line.map .byte ++ .lineEnd b c :: rest := by
  induction l with
  | nil => exact .inl ⟨[], rfl⟩
  | cons e l ih =>
    cases e with
    | lineEnd b c => exact .inr ⟨[], b, c, l, rfl⟩
    | byte v =>
      rcases ih with ⟨line, rfl⟩ | ⟨line, b, c, rest, rfl⟩
      · exact .inl ⟨v :: line, rfl⟩
      · exact .inr ⟨v :: line, b, c, rest, rfl⟩

/-- Nothing delivered, or a line that has not ended: the adapter waits. -/
theorem readInputByte_awaits {s : State} (hi : s.inbuf = []) (h : AwaitsDelivery s.stream) :
    readInputByte s = .blocked := by
  rcases h with h | ⟨e, line, he, h⟩
  · simp only [readInputByte, hi, h]
  · simp only [readInputByte, hi, h, if_pos he, readLine_bytes]

/-- An escape byte and a whole line: the command is run, and the `in` is to be retried. -/
theorem readInputByte_command {s : State} {c : DebugCommand} {rest : List StreamItem} (hi : s.inbuf = [])
    (h : CommandAt s.stream c rest) : readInputByte s = .retry ({ s with stream := rest }.runCommand c) := by
  obtain ⟨e, line, b, he, h⟩ := h
  simp only [readInputByte, hi, h, if_pos he, readLine_line]

/-- Any other byte is delivered. -/
theorem readInputByte_item {s : State} {e : StreamItem} {rest : List StreamItem} (hi : s.inbuf = [])
    (h : s.stream = e :: rest) (he : e.value ≠ Config.escapeByte) :
    readInputByte s = .byte e.value { s with stream := rest } := by
  simp only [readInputByte, hi, h, if_neg he]

/-- What `ReadInputByte` can do (spec/47_io.md rule R203). -/
theorem readInputByte_cases (s : State) :
    (∃ b rest, s.inbuf = b :: rest ∧ readInputByte s = .byte b { s with inbuf := rest }) ∨
    (∃ e rest, s.inbuf = [] ∧ s.stream = e :: rest ∧ e.value ≠ Config.escapeByte ∧
      readInputByte s = .byte e.value { s with stream := rest }) ∨
    (∃ c rest, s.inbuf = [] ∧ CommandAt s.stream c rest ∧
      readInputByte s = .retry ({ s with stream := rest }.runCommand c)) ∨
    (s.inbuf = [] ∧ AwaitsDelivery s.stream ∧ readInputByte s = .blocked) := by
  obtain hi | ⟨b, rest, hi⟩ : s.inbuf = [] ∨ ∃ b rest, s.inbuf = b :: rest := by cases s.inbuf <;> simp
  · obtain hs | ⟨e, rest, hs⟩ : s.stream = [] ∨ ∃ e rest, s.stream = e :: rest := by cases s.stream <;> simp
    · exact .inr (.inr (.inr ⟨hi, .inl hs, readInputByte_awaits hi (.inl hs)⟩))
    · by_cases he : e.value = Config.escapeByte
      · rcases readLine_cases rest with ⟨line, rfl⟩ | ⟨line, b, c, after, rfl⟩
        · have h : AwaitsDelivery s.stream := .inr ⟨e, line, he, hs⟩
          exact .inr (.inr (.inr ⟨hi, h, readInputByte_awaits hi h⟩))
        · have h : CommandAt s.stream c after := ⟨e, line, b, he, hs⟩
          exact .inr (.inr (.inl ⟨c, after, hi, h, readInputByte_command hi h⟩))
      · exact .inr (.inl ⟨e, rest, hi, hs, he, readInputByte_item hi hs he⟩)
  · exact .inl ⟨b, rest, hi, by simp only [readInputByte, hi]⟩

end Sys2Proof.Machine
end

