-- ==== Sys2Proof/Laws/State.lean ====
section
/-! SUPPORT. One lemma per field per named update of the state, so that no proof unfolds an update. -/

namespace Sys2Proof.Machine

variable (s : State)

/-! ## `takeFault` -/

@[simp] theorem State.takeFault_mem (t : Trap) : (s.takeFault t).mem = s.mem := rfl
@[simp] theorem State.takeFault_x (t : Trap) : (s.takeFault t).x = s.x := rfl
@[simp] theorem State.takeFault_pc (t : Trap) : (s.takeFault t).pc = s.pc := rfl
@[simp] theorem State.takeFault_stack (t : Trap) : (s.takeFault t).stack = s.stack := rfl
@[simp] theorem State.takeFault_running (t : Trap) : (s.takeFault t).running = false := rfl
@[simp] theorem State.takeFault_fault (t : Trap) : (s.takeFault t).fault = some ⟨t.kind, s.pc, t.value⟩ := rfl
@[simp] theorem State.takeFault_inbuf (t : Trap) : (s.takeFault t).inbuf = s.inbuf := rfl
@[simp] theorem State.takeFault_output (t : Trap) : (s.takeFault t).output = s.output := rfl
@[simp] theorem State.takeFault_stream (t : Trap) : (s.takeFault t).stream = s.stream := rfl
@[simp] theorem State.takeFault_getReg (t : Trap) (q : Fin 8) : (s.takeFault t).getReg q = s.getReg q := rfl

/-! ## `setReg` -/

@[simp] theorem State.setReg_mem (r : Fin 8) (v : Word) : (s.setReg r v).mem = s.mem := rfl
@[simp] theorem State.setReg_x (r : Fin 8) (v : Word) : (s.setReg r v).x = s.x.set r.val v := rfl
@[simp] theorem State.setReg_pc (r : Fin 8) (v : Word) : (s.setReg r v).pc = s.pc := rfl
@[simp] theorem State.setReg_stack (r : Fin 8) (v : Word) : (s.setReg r v).stack = s.stack := rfl
@[simp] theorem State.setReg_running (r : Fin 8) (v : Word) : (s.setReg r v).running = s.running := rfl
@[simp] theorem State.setReg_fault (r : Fin 8) (v : Word) : (s.setReg r v).fault = s.fault := rfl
@[simp] theorem State.setReg_inbuf (r : Fin 8) (v : Word) : (s.setReg r v).inbuf = s.inbuf := rfl
@[simp] theorem State.setReg_output (r : Fin 8) (v : Word) : (s.setReg r v).output = s.output := rfl
@[simp] theorem State.setReg_stream (r : Fin 8) (v : Word) : (s.setReg r v).stream = s.stream := rfl

/-! ## `setPc` -/

@[simp] theorem State.setPc_mem (v : Word) : (s.setPc v).mem = s.mem := rfl
@[simp] theorem State.setPc_x (v : Word) : (s.setPc v).x = s.x := rfl
@[simp] theorem State.setPc_pc (v : Word) : (s.setPc v).pc = v := rfl
@[simp] theorem State.setPc_stack (v : Word) : (s.setPc v).stack = s.stack := rfl
@[simp] theorem State.setPc_running (v : Word) : (s.setPc v).running = s.running := rfl
@[simp] theorem State.setPc_fault (v : Word) : (s.setPc v).fault = s.fault := rfl
@[simp] theorem State.setPc_inbuf (v : Word) : (s.setPc v).inbuf = s.inbuf := rfl
@[simp] theorem State.setPc_output (v : Word) : (s.setPc v).output = s.output := rfl
@[simp] theorem State.setPc_stream (v : Word) : (s.setPc v).stream = s.stream := rfl
@[simp] theorem State.setPc_getReg (v : Word) (q : Fin 8) : (s.setPc v).getReg q = s.getReg q := rfl

/-! ## `advance` -/

@[simp] theorem State.advance_mem (n : Nat) : (s.advance n).mem = s.mem := rfl
@[simp] theorem State.advance_x (n : Nat) : (s.advance n).x = s.x := rfl
@[simp] theorem State.advance_pc (n : Nat) : (s.advance n).pc = s.pc + BitVec.ofNat 16 (1 + n) := rfl
@[simp] theorem State.advance_stack (n : Nat) : (s.advance n).stack = s.stack := rfl
@[simp] theorem State.advance_running (n : Nat) : (s.advance n).running = s.running := rfl
@[simp] theorem State.advance_fault (n : Nat) : (s.advance n).fault = s.fault := rfl
@[simp] theorem State.advance_inbuf (n : Nat) : (s.advance n).inbuf = s.inbuf := rfl
@[simp] theorem State.advance_output (n : Nat) : (s.advance n).output = s.output := rfl
@[simp] theorem State.advance_stream (n : Nat) : (s.advance n).stream = s.stream := rfl
@[simp] theorem State.advance_getReg (n : Nat) (q : Fin 8) : (s.advance n).getReg q = s.getReg q := rfl

/-! ## `stop` -/

@[simp] theorem State.stop_mem : (s.stop).mem = s.mem := rfl
@[simp] theorem State.stop_x : (s.stop).x = s.x := rfl
@[simp] theorem State.stop_pc : (s.stop).pc = s.pc := rfl
@[simp] theorem State.stop_stack : (s.stop).stack = s.stack := rfl
@[simp] theorem State.stop_running : (s.stop).running = false := rfl
@[simp] theorem State.stop_fault : (s.stop).fault = s.fault := rfl
@[simp] theorem State.stop_inbuf : (s.stop).inbuf = s.inbuf := rfl
@[simp] theorem State.stop_output : (s.stop).output = s.output := rfl
@[simp] theorem State.stop_stream : (s.stop).stream = s.stream := rfl
@[simp] theorem State.stop_getReg (q : Fin 8) : (s.stop).getReg q = s.getReg q := rfl

/-! ## `push` -/

@[simp] theorem State.push_mem (v : Word) : (s.push v).mem = s.mem := rfl
@[simp] theorem State.push_x (v : Word) : (s.push v).x = s.x := rfl
@[simp] theorem State.push_pc (v : Word) : (s.push v).pc = s.pc := rfl
@[simp] theorem State.push_stack (v : Word) : (s.push v).stack = v :: s.stack := rfl
@[simp] theorem State.push_running (v : Word) : (s.push v).running = s.running := rfl
@[simp] theorem State.push_fault (v : Word) : (s.push v).fault = s.fault := rfl
@[simp] theorem State.push_inbuf (v : Word) : (s.push v).inbuf = s.inbuf := rfl
@[simp] theorem State.push_output (v : Word) : (s.push v).output = s.output := rfl
@[simp] theorem State.push_stream (v : Word) : (s.push v).stream = s.stream := rfl
@[simp] theorem State.push_getReg (v : Word) (q : Fin 8) : (s.push v).getReg q = s.getReg q := rfl

/-! ## `emit` -/

@[simp] theorem State.emit_mem (b : Byte) : (s.emit b).mem = s.mem := rfl
@[simp] theorem State.emit_x (b : Byte) : (s.emit b).x = s.x := rfl
@[simp] theorem State.emit_pc (b : Byte) : (s.emit b).pc = s.pc := rfl
@[simp] theorem State.emit_stack (b : Byte) : (s.emit b).stack = s.stack := rfl
@[simp] theorem State.emit_running (b : Byte) : (s.emit b).running = s.running := rfl
@[simp] theorem State.emit_fault (b : Byte) : (s.emit b).fault = s.fault := rfl
@[simp] theorem State.emit_inbuf (b : Byte) : (s.emit b).inbuf = s.inbuf := rfl
@[simp] theorem State.emit_output (b : Byte) : (s.emit b).output = s.output ++ [b] := rfl
@[simp] theorem State.emit_stream (b : Byte) : (s.emit b).stream = s.stream := rfl
@[simp] theorem State.emit_getReg (b : Byte) (q : Fin 8) : (s.emit b).getReg q = s.getReg q := rfl

/-! ## Reading a register after writing one (spec/10_state.md rule R21) -/

theorem State.setReg_getReg (r q : Fin 8) (v : Word) :
    (s.setReg r v).getReg q = if q = r then v else s.getReg q := by
  simp only [State.setReg, State.getReg, Vector.getElem_set, Fin.ext_iff, eq_comm]

@[simp] theorem State.setReg_getReg_same (r : Fin 8) (v : Word) : (s.setReg r v).getReg r = v := by
  simp [State.setReg_getReg]

theorem State.setReg_getReg_other {r q : Fin 8} (v : Word) (h : q ≠ r) :
    (s.setReg r v).getReg q = s.getReg q := by
  simp [State.setReg_getReg, h]

/-! ## Record updates that have no name -/

@[simp] theorem State.withMem_getReg (m : Memory) (q : Fin 8) :
    ({ s with mem := m } : State).getReg q = s.getReg q := rfl
@[simp] theorem State.withStack_getReg (l : List Word) (q : Fin 8) :
    ({ s with stack := l } : State).getReg q = s.getReg q := rfl
@[simp] theorem State.withInbuf_getReg (l : List Byte) (q : Fin 8) :
    ({ s with inbuf := l } : State).getReg q = s.getReg q := rfl
@[simp] theorem State.withStream_getReg (l : List StreamItem) (q : Fin 8) :
    ({ s with stream := l } : State).getReg q = s.getReg q := rfl
@[simp] theorem State.withOutput_getReg (l : List Byte) (q : Fin 8) :
    ({ s with output := l } : State).getReg q = s.getReg q := rfl

/-! ## The debug commands -/

/-- A debug command changes at most one register (spec/60_exceptions.md rule R236). -/
theorem State.runCommand_cases (c : DebugCommand) :
    s.runCommand c = s ∨
      ∃ r v, c = .set r v ∧ r < 8 ∧ v < 65536 ∧
        s.runCommand c = s.setReg (Fin.ofNat 8 r) (BitVec.ofNat 16 v) := by
  cases c with
  | set r v =>
    by_cases h : SetInRange r v
    · exact .inr ⟨r, v, rfl, h.1, h.2, by simp [State.runCommand, h]⟩
    · exact .inl (by simp only [State.runCommand, if_neg h])
  | dump | save _ | exportTo _ | malformed _ => exact .inl rfl

@[simp] theorem State.runCommand_mem (c : DebugCommand) : (s.runCommand c).mem = s.mem := by
  rcases s.runCommand_cases c with h | ⟨_, _, _, _, _, h⟩ <;> simp [h]
@[simp] theorem State.runCommand_pc (c : DebugCommand) : (s.runCommand c).pc = s.pc := by
  rcases s.runCommand_cases c with h | ⟨_, _, _, _, _, h⟩ <;> simp [h]
@[simp] theorem State.runCommand_stack (c : DebugCommand) : (s.runCommand c).stack = s.stack := by
  rcases s.runCommand_cases c with h | ⟨_, _, _, _, _, h⟩ <;> simp [h]
@[simp] theorem State.runCommand_running (c : DebugCommand) : (s.runCommand c).running = s.running := by
  rcases s.runCommand_cases c with h | ⟨_, _, _, _, _, h⟩ <;> simp [h]
@[simp] theorem State.runCommand_fault (c : DebugCommand) : (s.runCommand c).fault = s.fault := by
  rcases s.runCommand_cases c with h | ⟨_, _, _, _, _, h⟩ <;> simp [h]
@[simp] theorem State.runCommand_inbuf (c : DebugCommand) : (s.runCommand c).inbuf = s.inbuf := by
  rcases s.runCommand_cases c with h | ⟨_, _, _, _, _, h⟩ <;> simp [h]
@[simp] theorem State.runCommand_output (c : DebugCommand) : (s.runCommand c).output = s.output := by
  rcases s.runCommand_cases c with h | ⟨_, _, _, _, _, h⟩ <;> simp [h]
@[simp] theorem State.runCommand_stream (c : DebugCommand) : (s.runCommand c).stream = s.stream := by
  rcases s.runCommand_cases c with h | ⟨_, _, _, _, _, h⟩ <;> simp [h]

end Sys2Proof.Machine
end

