-- ==== Sys2Proof/Laws/Exec.lean ====
section
/-! SUPPORT. Everything each meaning can do, in one equation an instruction (the first operand fault is taken,
else the instruction's effect happens on the operands' values), and the inversion of `exec` that all of them
together give (`exec_cases`). Proofs cite these and unfold no meaning. -/

namespace Sys2Proof.Machine

variable (s : State) (a b c : Operand)

/-- The first operand fault is taken, else `effect` happens. -/
def afterOperands (slots : List (SlotKind × Operand)) (effect : Host.Outcome State Fault Refusal) :
    Host.Outcome State Fault Refusal :=
  match s.operandFault 1 slots with
  | some t => .next (s.takeFault t)
  | none => effect

/-- What `afterOperands` can do. -/
theorem afterOperands_cases {slots : List (SlotKind × Operand)} {effect : Host.Outcome State Fault Refusal}
    {t : State} (h : afterOperands s slots effect = .next t) :
    (∃ f, s.operandFault 1 slots = some f ∧ t = s.takeFault f) ∨
      s.operandFault 1 slots = none ∧ effect = .next t := by
  unfold afterOperands at h
  split at h
  · next f hf => exact .inl ⟨f, hf, by injection h with h; exact h.symm⟩
  · next hf => exact .inr ⟨hf, h⟩

/-- No operand fault, for legal operands. -/
theorem operandFault_none {k : Nat} {slots : List (SlotKind × Operand)} :
    s.operandFault k slots = none ↔ ∀ p ∈ slots, p.2.legal p.1 = true := by
  induction slots generalizing k with
  | nil => simp [State.operandFault]
  | cons p rest ih =>
    obtain ⟨kind, o⟩ := p
    simp only [State.operandFault, List.forall_mem_cons]
    cases hf : s.slotFault k kind o with
    | none => simp [(slotFault_eq_none k s kind o).1 hf, ih]
    | some f =>
      have : ¬ o.legal kind = true := fun hl => by simp [(slotFault_eq_none k s kind o).2 hl] at hf
      simp [this]

/-- The first operand fault is one of them. -/
theorem operandFault_mem {k : Nat} {slots : List (SlotKind × Operand)} {t : Trap}
    (h : s.operandFault k slots = some t) : t ∈ s.operandFaults k slots := by
  induction slots generalizing k with
  | nil => cases h
  | cons p rest ih =>
    obtain ⟨kind, o⟩ := p
    simp only [State.operandFault] at h
    simp only [State.operandFaults, List.mem_append]
    split at h
    · next f hf => exact .inl (by rw [hf, Option.toList_some, List.mem_singleton]; injection h with h; exact h.symm)
    · exact .inr (ih h)

/-- Where there are operand faults, one of them is the first. -/
theorem operandFault_of_faults {k : Nat} {slots : List (SlotKind × Operand)} (h : s.operandFaults k slots ≠ []) :
    ∃ t, s.operandFault k slots = some t := by
  induction slots generalizing k with
  | nil => exact absurd rfl h
  | cons p rest ih =>
    obtain ⟨kind, o⟩ := p
    simp only [State.operandFault]
    cases hf : s.slotFault k kind o with
    | some f => exact ⟨f, rfl⟩
    | none =>
      rw [State.operandFaults, hf, Option.toList_none, List.nil_append] at h
      exact ih h

theorem exec_halt : exec .halt s = .next (s.stop.advance 0) := rfl

theorem exec_noop : exec .noop s = .next (s.advance 0) := rfl

theorem exec_set : exec (.set a b) s =
    afterOperands s [(.reg, a), (.val, b)] (.next ((s.setReg (regOf a) (s.valueOf b)).advance 2)) :=
  withRV_eq s a b

theorem exec_push : exec (.push a) s =
    afterOperands s [(.val, a)] (.next ((s.push (s.valueOf a)).advance 1)) :=
  withVal_eq s a

theorem exec_pop : exec (.pop a) s =
    afterOperands s [(.reg, a)] (match s.stack with
      | [] => .next (s.takeFault ⟨.stackUnderflow, 0⟩)
      | v :: rest => .next (({ s with stack := rest }.setReg (regOf a) v).advance 1)) := by
  refine (withReg_eq s a).trans ?_
  rcases pop?_cases s with ⟨h, hp⟩ | ⟨v, rest, h, hp⟩ <;> simp only [h, hp] <;> rfl

theorem exec_compute (f : Word → Word → Word) : computeRVV f a b c s =
    afterOperands s [(.reg, a), (.val, b), (.val, c)]
      (.next ((s.setReg (regOf a) (f (s.valueOf b) (s.valueOf c))).advance 3)) :=
  withRVV_eq s a b c

theorem exec_eq : exec (.eq a b c) s =
    afterOperands s [(.reg, a), (.val, b), (.val, c)]
      (.next ((s.setReg (regOf a) (eqWord (s.valueOf b) (s.valueOf c))).advance 3)) :=
  exec_compute s a b c _

theorem exec_gt : exec (.gt a b c) s =
    afterOperands s [(.reg, a), (.val, b), (.val, c)]
      (.next ((s.setReg (regOf a) (gtWord (s.valueOf b) (s.valueOf c))).advance 3)) :=
  exec_compute s a b c _

theorem exec_add : exec (.add a b c) s =
    afterOperands s [(.reg, a), (.val, b), (.val, c)]
      (.next ((s.setReg (regOf a) (addWord (s.valueOf b) (s.valueOf c))).advance 3)) :=
  exec_compute s a b c _

theorem exec_mult : exec (.mult a b c) s =
    afterOperands s [(.reg, a), (.val, b), (.val, c)]
      (.next ((s.setReg (regOf a) (multWord (s.valueOf b) (s.valueOf c))).advance 3)) :=
  exec_compute s a b c _

theorem exec_and : exec (.and a b c) s =
    afterOperands s [(.reg, a), (.val, b), (.val, c)]
      (.next ((s.setReg (regOf a) (s.valueOf b &&& s.valueOf c)).advance 3)) :=
  exec_compute s a b c _

theorem exec_or : exec (.or a b c) s =
    afterOperands s [(.reg, a), (.val, b), (.val, c)]
      (.next ((s.setReg (regOf a) (s.valueOf b ||| s.valueOf c)).advance 3)) :=
  exec_compute s a b c _

theorem exec_mod : exec (.mod a b c) s =
    afterOperands s [(.reg, a), (.val, b), (.val, c)]
      (if (s.valueOf c).toNat = 0 then .next (s.takeFault ⟨.divideByZero, 0⟩)
      else .next ((s.setReg (regOf a) (modWord (s.valueOf b) (s.valueOf c))).advance 3)) :=
  withRVV_eq s a b c

theorem exec_not : exec (.not a b) s =
    afterOperands s [(.reg, a), (.val, b)]
      (.next ((s.setReg (regOf a) (notWord (s.valueOf b))).advance 2)) :=
  withRV_eq s a b

theorem exec_jmp : exec (.jmp a) s = afterOperands s [(.val, a)] (.next (s.setPc (s.valueOf a))) :=
  withVal_eq s a

theorem exec_jt : exec (.jt a b) s =
    afterOperands s [(.val, a), (.val, b)]
      (.next (if isZero (s.valueOf a) then s.advance 2 else s.setPc (s.valueOf b))) :=
  withVV_eq s a b

theorem exec_jf : exec (.jf a b) s =
    afterOperands s [(.val, a), (.val, b)]
      (.next (if isZero (s.valueOf a) then s.setPc (s.valueOf b) else s.advance 2)) :=
  withVV_eq s a b

theorem exec_call : exec (.call a) s =
    afterOperands s [(.val, a)] (.next ((s.push (s.pc + 2)).setPc (s.valueOf a))) :=
  withVal_eq s a

theorem exec_ret : exec .ret s = match s.stack with
    | [] => .next s.stop
    | v :: rest => .next ({ s with stack := rest }.setPc v) := by
  show execRet s = _
  unfold execRet
  rcases pop?_cases s with ⟨h, hp⟩ | ⟨v, rest, h, hp⟩ <;> simp only [h, hp]

theorem exec_rmem : exec (.rmem a b) s =
    afterOperands s [(.reg, a), (.val, b)]
      (if (s.valueOf b).toNat < 32768 then
        .next ((s.setReg (regOf a) (s.mem.readWord (s.valueOf b).toNat)).advance 2)
      else .next (s.takeFault ⟨.outOfBounds, s.valueOf b⟩)) := by
  refine (withRV_eq s a b).trans ?_
  by_cases h : (s.valueOf b).toNat < 32768
  · simp only [memRead_of_lt s h, if_pos h]; rfl
  · simp only [memRead_of_ge s (Nat.not_lt.1 h), if_neg h]; rfl

theorem exec_wmem : exec (.wmem a b) s =
    afterOperands s [(.val, a), (.val, b)]
      (if (s.valueOf a).toNat < 32768 then
        .next ({ s with mem := s.mem.writeWord (s.valueOf a).toNat (s.valueOf b) }.advance 2)
      else .next (s.takeFault ⟨.outOfBounds, s.valueOf a⟩)) := by
  refine (withVV_eq s a b).trans ?_
  by_cases h : (s.valueOf a).toNat < 32768
  · simp only [memWrite_of_lt s (s.valueOf b) h, if_pos h]; rfl
  · simp only [memWrite_of_ge s (s.valueOf b) (Nat.not_lt.1 h), if_neg h]; rfl

theorem exec_out : exec (.out a) s =
    afterOperands s [(.val, a)] (.next ((s.emit ((s.valueOf a).setWidth 8)).advance 1)) :=
  withVal_eq s a

theorem exec_in : exec (.in_ a) s =
    afterOperands s [(.reg, a)] (match readInputByte s with
      | .byte v s' => .next ((s'.setReg (regOf a) (v.setWidth 16)).advance 1)
      | .retry s' => .next s'
      | .blocked => .next s) :=
  withReg_eq s a

variable {s a} in
/-- `in` on a legal operand that finds a byte of the interactive stream other than the escape byte. -/
theorem exec_in_item {e : StreamItem} {rest : List StreamItem} (ha : a.legal .reg = true) (hi : s.inbuf = [])
    (h : s.stream = e :: rest) (he : e.value ≠ Config.escapeByte) :
    exec (.in_ a) s = .next (({ s with stream := rest }.setReg (regOf a) (e.value.setWidth 16)).advance 1) := by
  rw [exec_in, readInputByte_item hi h he, afterOperands, (operandFault_none s).2 (by simpa using ha)]

variable {s a} in
/-- `in` on a legal operand that finds a debug command. -/
theorem exec_in_command {c : DebugCommand} {rest : List StreamItem} (ha : a.legal .reg = true) (hi : s.inbuf = [])
    (h : CommandAt s.stream c rest) : exec (.in_ a) s = .next ({ s with stream := rest }.runCommand c) := by
  rw [exec_in, readInputByte_command hi h, afterOperands, (operandFault_none s).2 (by simpa using ha)]

variable {s a} in
/-- `in` on a legal operand that finds nothing waits. -/
theorem exec_in_awaits (ha : a.legal .reg = true) (hi : s.inbuf = []) (h : AwaitsDelivery s.stream) :
    exec (.in_ a) s = .next s := by
  rw [exec_in, readInputByte_awaits hi h, afterOperands, (operandFault_none s).2 (by simpa using ha)]

/-! ## What an instruction can do -/

/-- The state an instruction leaves when it takes no fault. -/
def Effect (i : Instr) (s t : State) : Prop :=
  match i with
  | .halt => t = s.stop.advance 0
  | .set a b => t = (s.setReg (regOf a) (s.valueOf b)).advance 2
  | .push a => t = (s.push (s.valueOf a)).advance 1
  | .pop a => ∃ v rest, s.stack = v :: rest ∧ t = ({ s with stack := rest }.setReg (regOf a) v).advance 1
  | .eq a b c => t = (s.setReg (regOf a) (eqWord (s.valueOf b) (s.valueOf c))).advance 3
  | .gt a b c => t = (s.setReg (regOf a) (gtWord (s.valueOf b) (s.valueOf c))).advance 3
  | .jmp a => t = s.setPc (s.valueOf a)
  | .jt a b => t = if isZero (s.valueOf a) then s.advance 2 else s.setPc (s.valueOf b)
  | .jf a b => t = if isZero (s.valueOf a) then s.setPc (s.valueOf b) else s.advance 2
  | .add a b c => t = (s.setReg (regOf a) (addWord (s.valueOf b) (s.valueOf c))).advance 3
  | .mult a b c => t = (s.setReg (regOf a) (multWord (s.valueOf b) (s.valueOf c))).advance 3
  | .mod a b c =>
    (s.valueOf c).toNat ≠ 0 ∧ t = (s.setReg (regOf a) (modWord (s.valueOf b) (s.valueOf c))).advance 3
  | .and a b c => t = (s.setReg (regOf a) (s.valueOf b &&& s.valueOf c)).advance 3
  | .or a b c => t = (s.setReg (regOf a) (s.valueOf b ||| s.valueOf c)).advance 3
  | .not a b => t = (s.setReg (regOf a) (notWord (s.valueOf b))).advance 2
  | .rmem a b =>
    (s.valueOf b).toNat < 32768 ∧
      t = (s.setReg (regOf a) (s.mem.readWord (s.valueOf b).toNat)).advance 2
  | .wmem a b =>
    (s.valueOf a).toNat < 32768 ∧
      t = { s with mem := s.mem.writeWord (s.valueOf a).toNat (s.valueOf b) }.advance 2
  | .call a => t = (s.push (s.pc + 2)).setPc (s.valueOf a)
  | .ret =>
    s.stack = [] ∧ t = s.stop ∨ ∃ v rest, s.stack = v :: rest ∧ t = { s with stack := rest }.setPc v
  | .out a => t = (s.emit ((s.valueOf a).setWidth 8)).advance 1
  | .in_ a =>
    (∃ v rest, s.inbuf = v :: rest ∧
      t = ({ s with inbuf := rest }.setReg (regOf a) (v.setWidth 16)).advance 1) ∨
    (∃ e rest, s.inbuf = [] ∧ s.stream = e :: rest ∧ e.value ≠ Config.escapeByte ∧
      t = ({ s with stream := rest }.setReg (regOf a) (e.value.setWidth 16)).advance 1) ∨
    (∃ c rest, s.inbuf = [] ∧ CommandAt s.stream c rest ∧ t = { s with stream := rest }.runCommand c) ∨
    (s.inbuf = [] ∧ AwaitsDelivery s.stream ∧ t = s)
  | .noop => t = s.advance 0

/-- An instruction takes a fault and does nothing else, or its operands are legal and it has its effect. -/
theorem exec_cases {i : Instr} {s t : State} (h : exec i s = .next t) :
    (∃ f, t = s.takeFault f) ∨ (∀ p ∈ i.slots, p.2.legal p.1 = true) ∧ Effect i s t := by
  have key : ∀ {slots : List (SlotKind × Operand)} {effect : Host.Outcome State Fault Refusal},
      slots = i.slots → exec i s = afterOperands s slots effect →
      (effect = .next t → (∃ f, t = s.takeFault f) ∨ Effect i s t) →
      (∃ f, t = s.takeFault f) ∨ (∀ p ∈ i.slots, p.2.legal p.1 = true) ∧ Effect i s t := by
    intro slots effect hs he hc
    rcases afterOperands_cases s (he.symm.trans h) with ⟨f, -, ht⟩ | ⟨hn, ht⟩
    · exact .inl ⟨f, ht⟩
    · exact (hc ht).imp_right fun hc => ⟨hs ▸ (operandFault_none s).1 hn, hc⟩
  have one : ∀ {u : State}, Host.Outcome.next (φ := Fault) (ρ := Refusal) u = .next t → t = u := by
    intro u hu; injection hu with hu; exact hu.symm
  cases i with
  | halt => exact .inr ⟨by simp [Instr.slots], one h⟩
  | noop => exact .inr ⟨by simp [Instr.slots], one h⟩
  | ret =>
    refine .inr ⟨by simp [Instr.slots], ?_⟩
    rw [exec_ret] at h
    split at h
    · next hs => exact .inl ⟨hs, one h⟩
    · next v rest hs => exact .inr ⟨v, rest, hs, one h⟩
  | set a b => exact key rfl (exec_set s a b) fun h => .inr (one h)
  | push a => exact key rfl (exec_push s a) fun h => .inr (one h)
  | pop a =>
    refine key rfl (exec_pop s a) fun h => ?_
    split at h
    · exact .inl ⟨_, one h⟩
    · next v rest hs => exact .inr ⟨v, rest, hs, one h⟩
  | eq a b c => exact key rfl (exec_eq s a b c) fun h => .inr (one h)
  | gt a b c => exact key rfl (exec_gt s a b c) fun h => .inr (one h)
  | jmp a => exact key rfl (exec_jmp s a) fun h => .inr (one h)
  | jt a b => exact key rfl (exec_jt s a b) fun h => .inr (one h)
  | jf a b => exact key rfl (exec_jf s a b) fun h => .inr (one h)
  | add a b c => exact key rfl (exec_add s a b c) fun h => .inr (one h)
  | mult a b c => exact key rfl (exec_mult s a b c) fun h => .inr (one h)
  | mod a b c =>
    refine key rfl (exec_mod s a b c) fun h => ?_
    split at h
    · exact .inl ⟨_, one h⟩
    · next hz => exact .inr ⟨hz, one h⟩
  | and a b c => exact key rfl (exec_and s a b c) fun h => .inr (one h)
  | or a b c => exact key rfl (exec_or s a b c) fun h => .inr (one h)
  | not a b => exact key rfl (exec_not s a b) fun h => .inr (one h)
  | rmem a b =>
    refine key rfl (exec_rmem s a b) fun h => ?_
    split at h
    · next hz => exact .inr ⟨hz, one h⟩
    · exact .inl ⟨_, one h⟩
  | wmem a b =>
    refine key rfl (exec_wmem s a b) fun h => ?_
    split at h
    · next hz => exact .inr ⟨hz, one h⟩
    · exact .inl ⟨_, one h⟩
  | call a => exact key rfl (exec_call s a) fun h => .inr (one h)
  | out a => exact key rfl (exec_out s a) fun h => .inr (one h)
  | in_ a =>
    refine key rfl (exec_in s a) fun h => .inr ?_
    rcases readInputByte_cases s with ⟨v, rest, h1, he⟩ | ⟨v, rest, h1, h2, h3, he⟩ |
      ⟨c, rest, h1, h2, he⟩ | ⟨h1, h2, he⟩ <;> rw [he] at h
    · exact .inl ⟨v, rest, h1, one h⟩
    · exact .inr (.inl ⟨v, rest, h1, h2, h3, one h⟩)
    · exact .inr (.inr (.inl ⟨c, rest, h1, h2, one h⟩))
    · exact .inr (.inr (.inr ⟨h1, h2, one h⟩))

/-! ## Fetch -/

/-- The words of a fetch (spec/40_execution_cycle.md rule R101). -/
theorem wordsFrom_getElem? (m : Memory) (p n k : Nat) :
    (m.wordsFrom p n)[k]? = if k < n ∧ p + k < 32768 then some (m.readWord (p + k)) else none := by
  induction n generalizing p k with
  | zero => simp [Memory.wordsFrom]
  | succ n ih =>
    unfold Memory.wordsFrom
    by_cases hp : p < Config.memWords
    · rw [if_pos hp]
      have hp' : p < 32768 := hp
      cases k with
      | zero => simp [hp']
      | succ k =>
        rw [List.getElem?_cons_succ, ih, show p + 1 + k = p + (k + 1) by omega]
        simp only [Nat.add_lt_add_iff_right]
    · rw [if_neg hp]
      have hp' : ¬ p < 32768 := hp
      rw [if_neg (by omega)]
      simp

/-- Fetching from an address that exists takes the opcode word and then the slots. -/
theorem fetchWords_eq_cons (h : s.pc.toNat < 32768) :
    s.fetchWords = s.mem.readWord s.pc.toNat :: s.mem.wordsFrom (s.pc.toNat + 1) 3 := by
  unfold State.fetchWords
  rw [Memory.wordsFrom, if_pos (show s.pc.toNat < Config.memWords from h)]

theorem fetchWords_eq_nil (h : 32768 ≤ s.pc.toNat) : s.fetchWords = [] := by
  unfold State.fetchWords
  rw [Memory.wordsFrom, if_neg (show ¬ s.pc.toNat < Config.memWords from Nat.not_lt.2 h)]

end Sys2Proof.Machine
end

