-- ==== Sys2Proof/Laws/Memory.lean ====
section
/-! SUPPORT. The byte store: reading after writing, and the canonical form that every operation keeps
(spec/20_memory.md rules R51 to R53). -/

namespace Sys2Proof.Machine

/-! ## One byte -/

@[simp] theorem Memory.readByte_nil (a : Nat) : Memory.readByte [] a = Config.fillByte := rfl

theorem Memory.readByte_cons (b : Nat) (v : Byte) (m : Memory) (a : Nat) :
    Memory.readByte ((b, v) :: m) a = if b = a then v else m.readByte a := rfl

/-- A byte below every listed offset is unlisted. -/
theorem Memory.readByte_below {m : Memory} {a : Nat} (h : ∀ c ∈ m, a < c.1) :
    m.readByte a = Config.fillByte := by
  induction m with
  | nil => rfl
  | cons c m ih =>
    obtain ⟨b, v⟩ := c
    have hb : a < b := h (b, v) (by simp)
    rw [Memory.readByte_cons, if_neg (by omega), ih fun c hc => h c (by simp [hc])]

theorem Memory.readByte_consByte {m : Memory} {a : Nat} (v : Byte) (h : ∀ c ∈ m, a < c.1) (q : Nat) :
    (Memory.consByte a v m).readByte q = if q = a then v else m.readByte q := by
  unfold Memory.consByte
  split
  · next hv =>
    split
    · next hq => rw [hv, hq, Memory.readByte_below h]
    · rfl
  · rw [Memory.readByte_cons]
    by_cases hq : a = q
    · simp [hq]
    · rw [if_neg hq, if_neg (Ne.symm hq)]

/-- The offsets after a write are the old ones and perhaps the written one. -/
theorem Memory.mem_writeByte {m : Memory} {a : Nat} {v : Byte} {c : Host.Cell}
    (h : c ∈ m.writeByte a v) : c ∈ m ∨ c = (a, v) ∧ v ≠ Config.fillByte := by
  induction m with
  | nil =>
    simp only [Memory.writeByte, Memory.consByte] at h
    split at h <;> simp_all
  | cons d m ih =>
    obtain ⟨b, w⟩ := d
    simp only [Memory.writeByte, Memory.consByte] at h
    split at h
    · split at h <;> simp_all
      rcases h with h | h | h <;> simp_all
    · split at h
      · split at h <;> simp_all
        rcases h with h | h <;> simp_all
      · rcases List.mem_cons.1 h with h | h
        · simp [h]
        · rcases ih h with h | h <;> simp [h]

/-- Strictly rising offsets are kept by a write. -/
theorem Memory.writeByte_pairwise {m : Memory} (a : Nat) (v : Byte)
    (h : m.Pairwise fun c d => c.1 < d.1) : (m.writeByte a v).Pairwise fun c d => c.1 < d.1 := by
  induction m with
  | nil =>
    simp only [Memory.writeByte, Memory.consByte]
    split <;> simp
  | cons d m ih =>
    obtain ⟨b, w⟩ := d
    have hm := List.pairwise_cons.1 h
    simp only [Memory.writeByte, Memory.consByte]
    split
    · next hab =>
      split
      · exact h
      · refine List.pairwise_cons.2 ⟨?_, h⟩
        intro c hc
        rcases List.mem_cons.1 hc with rfl | hc
        · exact hab
        · exact Nat.lt_trans hab (hm.1 c hc)
    · split
      · next hab =>
        subst hab
        split
        · exact hm.2
        · exact List.pairwise_cons.2 ⟨hm.1, hm.2⟩
      · next hlt hne =>
        refine List.pairwise_cons.2 ⟨?_, ih hm.2⟩
        intro c hc
        rcases Memory.mem_writeByte hc with hc | ⟨rfl, -⟩
        · exact hm.1 c hc
        · show b < a
          omega

/-- A write keeps the canonical form. -/
theorem Memory.writeByte_wf {m : Memory} {a : Nat} (v : Byte) (ha : a < Config.memBytes) (h : m.wf) :
    (m.writeByte a v).wf := by
  refine ⟨Memory.writeByte_pairwise a v h.1, fun c hc => ?_⟩
  rcases Memory.mem_writeByte hc with hc | ⟨rfl, hv⟩
  · exact h.2 c hc
  · exact ⟨ha, hv⟩

/-- Reading a byte after writing one, on strictly rising offsets. -/
theorem Memory.readByte_writeByte {m : Memory} (a : Nat) (v : Byte)
    (h : m.Pairwise fun c d => c.1 < d.1) (q : Nat) :
    (m.writeByte a v).readByte q = if q = a then v else m.readByte q := by
  induction m with
  | nil => exact Memory.readByte_consByte v (by simp) q
  | cons d m ih =>
    obtain ⟨b, w⟩ := d
    have hm := List.pairwise_cons.1 h
    simp only [Memory.writeByte]
    split
    · next hab =>
      refine Memory.readByte_consByte v ?_ q
      intro c hc
      rcases List.mem_cons.1 hc with rfl | hc
      · exact hab
      · exact Nat.lt_trans hab (hm.1 c hc)
    · split
      · next hab =>
        subst hab
        rw [Memory.readByte_consByte v hm.1 q, Memory.readByte_cons]
        by_cases hq : q = a
        · simp [hq]
        · rw [if_neg hq, if_neg hq, if_neg (Ne.symm hq)]
      · next hlt hne =>
        rw [Memory.readByte_cons, Memory.readByte_cons, ih hm.2]
        by_cases hb : b = q
        · rw [if_pos hb, if_pos hb, if_neg (by omega)]
        · rw [if_neg hb, if_neg hb]

/-! ## One word -/

/-- The bytes of a word make it again (rule R51). -/
theorem wordOfBytes_low_high (w : Word) : wordOfBytes (lowByte w) (highByte w) = w := by
  apply BitVec.eq_of_toNat_eq
  simp only [wordOfBytes, lowByte, highByte, BitVec.toNat_append, BitVec.extractLsb'_toNat]
  have := w.isLt
  rw [← Nat.shiftLeft_add_eq_or_of_lt (by omega), Nat.shiftLeft_eq]
  simp only [Nat.shiftRight_eq_div_pow]
  omega

/-- A word is its high byte times 256 plus its low byte (rules R51 and R52). -/
theorem wordOfBytes_toNat (low high : Byte) : (wordOfBytes low high).toNat = high.toNat * 256 + low.toNat := by
  simp only [wordOfBytes, BitVec.toNat_append]
  have := low.isLt
  rw [← Nat.shiftLeft_add_eq_or_of_lt (by omega), Nat.shiftLeft_eq]

theorem lowByte_toNat (w : Word) : (lowByte w).toNat = w.toNat % 256 := by
  simp [lowByte]

theorem highByte_toNat (w : Word) : (highByte w).toNat = w.toNat / 256 := by
  have := w.isLt
  simp only [highByte, BitVec.extractLsb'_toNat, Nat.shiftRight_eq_div_pow]
  omega

/-- Writing a word keeps the canonical form (rule R53). -/
theorem Memory.writeWord_wf {m : Memory} {a : Nat} (v : Word) (ha : a < Config.memWords) (h : m.wf) :
    (m.writeWord a v).wf := by
  have hw : Config.memWords = 32768 := rfl
  have hb : Config.memBytes = 65536 := rfl
  exact Memory.writeByte_wf _ (by omega) (Memory.writeByte_wf _ (by omega) h)

/-- The bytes after writing a word (rule R53). -/
theorem Memory.readByte_writeWord {m : Memory} (a : Nat) (v : Word)
    (h : m.Pairwise fun c d => c.1 < d.1) (q : Nat) :
    (m.writeWord a v).readByte q =
      if q = 2 * a then lowByte v else if q = 2 * a + 1 then highByte v else m.readByte q := by
  unfold Memory.writeWord
  rw [Memory.readByte_writeByte _ _ (Memory.writeByte_pairwise _ _ h), Memory.readByte_writeByte _ _ h]
  by_cases h0 : q = 2 * a
  · simp [h0]
  · simp [h0]

/-- Reading a word after writing one (rule R53). -/
theorem Memory.readWord_writeWord {m : Memory} (a : Nat) (v : Word)
    (h : m.Pairwise fun c d => c.1 < d.1) (q : Nat) :
    (m.writeWord a v).readWord q = if q = a then v else m.readWord q := by
  unfold Memory.readWord
  rw [Memory.readByte_writeWord a v h, Memory.readByte_writeWord a v h]
  by_cases hq : q = a
  · subst hq
    simp [wordOfBytes_low_high]
  · rw [if_neg (by omega), if_neg (by omega), if_neg (by omega), if_neg (by omega), if_neg hq]

/-! ## Images -/

theorem Memory.mem_ofBytes {a : Nat} {bs : List Byte} {c : Host.Cell} (h : c ∈ Memory.ofBytes a bs) :
    a ≤ c.1 ∧ c.1 < a + bs.length ∧ c.2 ≠ Config.fillByte := by
  induction bs generalizing a with
  | nil => simp [Memory.ofBytes] at h
  | cons v bs ih =>
    simp only [Memory.ofBytes, Memory.consByte] at h
    simp only [List.length_cons]
    split at h
    · obtain ⟨h1, h2, h3⟩ := ih h
      exact ⟨by omega, by omega, h3⟩
    · next hv =>
      rcases List.mem_cons.1 h with rfl | h
      · exact ⟨Nat.le_refl _, by simp, hv⟩
      · obtain ⟨h1, h2, h3⟩ := ih h
        exact ⟨by omega, by omega, h3⟩

/-- A loaded image is in canonical form. -/
theorem Memory.ofBytes_wf {a : Nat} {bs : List Byte} (h : a + bs.length ≤ Config.memBytes) :
    (Memory.ofBytes a bs).wf := by
  constructor
  · induction bs generalizing a with
    | nil => simp [Memory.ofBytes]
    | cons v bs ih =>
      have htail := ih (a := a + 1) (by simp only [List.length_cons] at h; omega)
      simp only [Memory.ofBytes, Memory.consByte]
      split
      · exact htail
      · exact List.pairwise_cons.2 ⟨fun c hc => (Memory.mem_ofBytes hc).1, htail⟩
  · intro c hc
    obtain ⟨-, h2, h3⟩ := Memory.mem_ofBytes hc
    exact ⟨by omega, h3⟩

/-- The bytes of a loaded image (spec/70_reset_and_hazards.md rule R261). -/
theorem Memory.readByte_ofBytes (a : Nat) (bs : List Byte) (q : Nat) :
    (Memory.ofBytes a bs).readByte (a + q) = bs[q]?.getD Config.fillByte := by
  induction bs generalizing a q with
  | nil => simp [Memory.ofBytes]
  | cons v bs ih =>
    rw [Memory.ofBytes, Memory.readByte_consByte v (fun c hc => (Memory.mem_ofBytes hc).1)]
    cases q with
    | zero => simp
    | succ q =>
      rw [if_neg (by omega), show a + (q + 1) = a + 1 + q by omega, ih]
      simp

/-- Storing words keeps the canonical form. -/
theorem Memory.placeWords_wf {m : Memory} (a : Nat) (ws : List Word) (h : m.wf) :
    (m.placeWords a ws).wf := by
  induction ws generalizing m a with
  | nil => exact h
  | cons w ws ih =>
    simp only [Memory.placeWords]
    split
    · next ha => exact ih (a + 1) (Memory.writeWord_wf w ha h)
    · exact h

theorem Memory.nil_wf : Memory.wf [] := ⟨List.Pairwise.nil, fun _ h => nomatch h⟩

end Sys2Proof.Machine
end

