-- ==== Sys2Proof/Laws/PerInstr.lean ====
section
/-! SUPPORT. The family of statements about every instruction as syntax: a well-formed instruction is
encoded in as many words as its format says, its opcode word first (spec/30_encoding.md rules R80, R84, R88). -/

namespace Sys2Proof.Laws

/-- A legal operand takes one word. -/
theorem encodeSlot_length {kind : SlotKind} {o : Operand} (h : o.legal kind = true) :
    (encodeSlot o).length = 1 := by
  obtain ⟨raw, hraw, -⟩ := encodeSlot_legal h
  rw [hraw]
  rfl

/-- A well-formed instruction has the words of its format, and the first is an opcode. -/
def EncodeLength.Statement (i : Instr) : Prop :=
  i.wf = true → (encode i).length = i.words ∧ ∃ op ws, encode i = op :: ws ∧ op.toNat < Config.numOpcodes

namespace EncodeLength

variable (a b c : Operand)

theorem halt : Statement .halt := fun _ => ⟨rfl, _, _, rfl, by decide⟩
theorem ret : Statement .ret := fun _ => ⟨rfl, _, _, rfl, by decide⟩
theorem noop : Statement .noop := fun _ => ⟨rfl, _, _, rfl, by decide⟩

theorem push : Statement (.push a) := fun h => by
  simp only [Instr.wf, Instr.slots, List.all_cons, List.all_nil, Bool.and_true] at h
  exact ⟨by simp [encode, Instr.words, Instr.slots, encodeSlot_length h], _, _, rfl, by decide⟩
theorem pop : Statement (.pop a) := fun h => by
  simp only [Instr.wf, Instr.slots, List.all_cons, List.all_nil, Bool.and_true] at h
  exact ⟨by simp [encode, Instr.words, Instr.slots, encodeSlot_length h], _, _, rfl, by decide⟩
theorem jmp : Statement (.jmp a) := fun h => by
  simp only [Instr.wf, Instr.slots, List.all_cons, List.all_nil, Bool.and_true] at h
  exact ⟨by simp [encode, Instr.words, Instr.slots, encodeSlot_length h], _, _, rfl, by decide⟩
theorem call : Statement (.call a) := fun h => by
  simp only [Instr.wf, Instr.slots, List.all_cons, List.all_nil, Bool.and_true] at h
  exact ⟨by simp [encode, Instr.words, Instr.slots, encodeSlot_length h], _, _, rfl, by decide⟩
theorem out : Statement (.out a) := fun h => by
  simp only [Instr.wf, Instr.slots, List.all_cons, List.all_nil, Bool.and_true] at h
  exact ⟨by simp [encode, Instr.words, Instr.slots, encodeSlot_length h], _, _, rfl, by decide⟩
theorem in_ : Statement (.in_ a) := fun h => by
  simp only [Instr.wf, Instr.slots, List.all_cons, List.all_nil, Bool.and_true] at h
  exact ⟨by simp [encode, Instr.words, Instr.slots, encodeSlot_length h], _, _, rfl, by decide⟩
theorem set : Statement (.set a b) := fun h => by
  simp only [Instr.wf, Instr.slots, List.all_cons, List.all_nil, Bool.and_true, Bool.and_eq_true] at h
  obtain ⟨ha, hb⟩ := h
  exact ⟨by simp [encode, Instr.words, Instr.slots, encodeSlot_length ha, encodeSlot_length hb], _, _, rfl, by decide⟩
theorem not : Statement (.not a b) := fun h => by
  simp only [Instr.wf, Instr.slots, List.all_cons, List.all_nil, Bool.and_true, Bool.and_eq_true] at h
  obtain ⟨ha, hb⟩ := h
  exact ⟨by simp [encode, Instr.words, Instr.slots, encodeSlot_length ha, encodeSlot_length hb], _, _, rfl, by decide⟩
theorem rmem : Statement (.rmem a b) := fun h => by
  simp only [Instr.wf, Instr.slots, List.all_cons, List.all_nil, Bool.and_true, Bool.and_eq_true] at h
  obtain ⟨ha, hb⟩ := h
  exact ⟨by simp [encode, Instr.words, Instr.slots, encodeSlot_length ha, encodeSlot_length hb], _, _, rfl, by decide⟩
theorem jt : Statement (.jt a b) := fun h => by
  simp only [Instr.wf, Instr.slots, List.all_cons, List.all_nil, Bool.and_true, Bool.and_eq_true] at h
  obtain ⟨ha, hb⟩ := h
  exact ⟨by simp [encode, Instr.words, Instr.slots, encodeSlot_length ha, encodeSlot_length hb], _, _, rfl, by decide⟩
theorem jf : Statement (.jf a b) := fun h => by
  simp only [Instr.wf, Instr.slots, List.all_cons, List.all_nil, Bool.and_true, Bool.and_eq_true] at h
  obtain ⟨ha, hb⟩ := h
  exact ⟨by simp [encode, Instr.words, Instr.slots, encodeSlot_length ha, encodeSlot_length hb], _, _, rfl, by decide⟩
theorem wmem : Statement (.wmem a b) := fun h => by
  simp only [Instr.wf, Instr.slots, List.all_cons, List.all_nil, Bool.and_true, Bool.and_eq_true] at h
  obtain ⟨ha, hb⟩ := h
  exact ⟨by simp [encode, Instr.words, Instr.slots, encodeSlot_length ha, encodeSlot_length hb], _, _, rfl, by decide⟩
theorem eq : Statement (.eq a b c) := fun h => by
  simp only [Instr.wf, Instr.slots, List.all_cons, List.all_nil, Bool.and_true, Bool.and_eq_true] at h
  obtain ⟨ha, hb, hc⟩ := h
  exact ⟨by simp [encode, Instr.words, Instr.slots, encodeSlot_length ha, encodeSlot_length hb, encodeSlot_length hc], _, _, rfl, by decide⟩
theorem gt : Statement (.gt a b c) := fun h => by
  simp only [Instr.wf, Instr.slots, List.all_cons, List.all_nil, Bool.and_true, Bool.and_eq_true] at h
  obtain ⟨ha, hb, hc⟩ := h
  exact ⟨by simp [encode, Instr.words, Instr.slots, encodeSlot_length ha, encodeSlot_length hb, encodeSlot_length hc], _, _, rfl, by decide⟩
theorem add : Statement (.add a b c) := fun h => by
  simp only [Instr.wf, Instr.slots, List.all_cons, List.all_nil, Bool.and_true, Bool.and_eq_true] at h
  obtain ⟨ha, hb, hc⟩ := h
  exact ⟨by simp [encode, Instr.words, Instr.slots, encodeSlot_length ha, encodeSlot_length hb, encodeSlot_length hc], _, _, rfl, by decide⟩
theorem mult : Statement (.mult a b c) := fun h => by
  simp only [Instr.wf, Instr.slots, List.all_cons, List.all_nil, Bool.and_true, Bool.and_eq_true] at h
  obtain ⟨ha, hb, hc⟩ := h
  exact ⟨by simp [encode, Instr.words, Instr.slots, encodeSlot_length ha, encodeSlot_length hb, encodeSlot_length hc], _, _, rfl, by decide⟩
theorem mod : Statement (.mod a b c) := fun h => by
  simp only [Instr.wf, Instr.slots, List.all_cons, List.all_nil, Bool.and_true, Bool.and_eq_true] at h
  obtain ⟨ha, hb, hc⟩ := h
  exact ⟨by simp [encode, Instr.words, Instr.slots, encodeSlot_length ha, encodeSlot_length hb, encodeSlot_length hc], _, _, rfl, by decide⟩
theorem and : Statement (.and a b c) := fun h => by
  simp only [Instr.wf, Instr.slots, List.all_cons, List.all_nil, Bool.and_true, Bool.and_eq_true] at h
  obtain ⟨ha, hb, hc⟩ := h
  exact ⟨by simp [encode, Instr.words, Instr.slots, encodeSlot_length ha, encodeSlot_length hb, encodeSlot_length hc], _, _, rfl, by decide⟩
theorem or : Statement (.or a b c) := fun h => by
  simp only [Instr.wf, Instr.slots, List.all_cons, List.all_nil, Bool.and_true, Bool.and_eq_true] at h
  obtain ⟨ha, hb, hc⟩ := h
  exact ⟨by simp [encode, Instr.words, Instr.slots, encodeSlot_length ha, encodeSlot_length hb, encodeSlot_length hc], _, _, rfl, by decide⟩

end EncodeLength

end Sys2Proof.Laws
end

