-- ==== Sys2Proof/Laws/Step.lean ====
section
/-! SUPPORT. The step and runs of steps, with the state's own type. -/

namespace Sys2Proof.Machine

/-- `k` steps of the machine. -/
def runSteps (k : Nat) (s : State) : Host.Outcome State Fault Refusal := Host.Core.run Sys2Proof.core k s

@[simp] theorem runSteps_zero (s : State) : runSteps 0 s = .next s := rfl

/-- A run of any machine starts with a step. -/
theorem run_succ (M : Host.Core) (k : Nat) (s : M.State) :
    (∀ t, M.step s = .next t → M.run (k + 1) s = M.run k t) ∧
    (∀ r, M.step s = .fault r → M.run (k + 1) s = .fault r) ∧
    (∀ r, M.step s = .refused r → M.run (k + 1) s = .refused r) := by
  refine ⟨fun t h => ?_, fun r h => ?_, fun r h => ?_⟩ <;> simp only [Host.Core.run, h]

/-- A run starts with a step. -/
theorem runSteps_succ (k : Nat) (s : State) :
    runSteps (k + 1) s =
      match step s with
      | .next t => runSteps k t
      | .fault r => .fault r
      | .refused r => .refused r := by
  cases h : step s with
  | next t => exact (run_succ Sys2Proof.core k s).1 t h
  | fault r => exact (run_succ Sys2Proof.core k s).2.1 r h
  | refused r => exact (run_succ Sys2Proof.core k s).2.2 r h

/-- A step that answers a next state was taken by a running machine, and it ran the fetched instruction or
took the fetch's fault. -/
theorem step_next_cases {s t : State} (h : step s = .next t) :
    s.running = true ∧
      ((∃ i, fetch s = .ok i ∧ exec i s = .next t) ∨ ∃ f, fetch s = .error f ∧ t = s.takeFault f) := by
  unfold step at h
  split at h
  · next hr =>
    refine ⟨hr, ?_⟩
    split at h
    · next i hi => exact .inl ⟨i, hi, h⟩
    · next f hf => exact .inr ⟨f, hf, by injection h with h; exact h.symm⟩
  · cases h

end Sys2Proof.Machine
end

