-- ==== Sys2Proof/Tests/Slice0.lean ====
section
/-! SUPPORT. The model's own tests: ill-formed terms that the checks refuse, words written out from the spec's
encodings, one step at a time against the vectors of spec/95_test_vectors.md (a test's comment names its vector),
and for each statement with hypotheses a state and operands that meet them. -/

namespace Sys2Proof.Tests

open Sys2Proof.Machine

/-- The reset state with `words` placed at word address `pc`, and the Program Counter there. -/
def start (pc : Nat) (words : List Word) : State :=
  { State.reset with mem := Memory.placeWords [] pc words, pc := BitVec.ofNat 16 pc }

/-- The next state of an outcome. -/
def nextOf : Host.Outcome State Fault Refusal → Option State
  | .next t => some t
  | .fault _ => none
  | .refused _ => none

/-- Registers and Program Counter after one step. -/
def regsPc (s : State) : Option (List Word × Word) := (nextOf (step s)).map fun t => (t.x.toList, t.pc)

/-- Fault record, running flag and Program Counter after one step. -/
def faultPc (s : State) : Option (Option FaultRecord × Bool × Word) :=
  (nextOf (step s)).map fun t => (t.fault, t.running, t.pc)

/-- Stack and Program Counter after one step. -/
def stackPc (s : State) : Option (List Word × Word) := (nextOf (step s)).map fun t => (t.stack, t.pc)

/-! ## Well-formedness: one ill-formed term for each check -/

theorem test_wf_reg_slot_literal : (Instr.set (.lit 5) (.lit 6)).wf = false := by decide
theorem test_wf_reg_slot_invalid : (Instr.pop (.invalid 32776)).wf = false := by decide
theorem test_wf_val_slot_invalid : (Instr.add (.reg 0) (.lit 1) (.invalid 40000)).wf = false := by decide
theorem test_wf_reg_slot_absent : (Instr.in_ .absent).wf = false := by decide
theorem test_wf_val_slot_absent : (Instr.wmem (.lit 1000) .absent).wf = false := by decide
theorem test_wf_legal : (Instr.add (.reg 0) (.reg 7) (.lit 32767)).wf = true := by decide
theorem test_classified_refuses_literal_word : (Operand.invalid 5).classified = false := by decide

/-! ## Decoding: words written out from rule R85's map, one or more for every constructor -/

theorem test_decode_halt : decode [0] = .ok .halt := rfl
theorem test_decode_set : decode [1, 32768, 5] = .ok (.set (.reg 0) (.lit 5)) := rfl
theorem test_decode_push : decode [2, 32770] = .ok (.push (.reg 2)) := rfl
theorem test_decode_pop : decode [3, 32768] = .ok (.pop (.reg 0)) := rfl
theorem test_decode_eq : decode [4, 32768, 32769, 7] = .ok (.eq (.reg 0) (.reg 1) (.lit 7)) := rfl
theorem test_decode_gt : decode [5, 32768, 32769, 32767] = .ok (.gt (.reg 0) (.reg 1) (.lit 32767)) := rfl
theorem test_decode_jmp : decode [6, 200] = .ok (.jmp (.lit 200)) := rfl
theorem test_decode_jt : decode [7, 32768, 50] = .ok (.jt (.reg 0) (.lit 50)) := rfl
theorem test_decode_jf : decode [8, 1, 32776] = .ok (.jf (.lit 1) (.invalid 32776)) := rfl
theorem test_decode_add : decode [9, 32768, 32769, 15] = .ok (.add (.reg 0) (.reg 1) (.lit 15)) := rfl
theorem test_decode_mult : decode [10, 32768, 256, 128] = .ok (.mult (.reg 0) (.lit 256) (.lit 128)) := rfl
theorem test_decode_mod : decode [11, 5, 32768, 0] = .ok (.mod (.lit 5) (.reg 0) (.lit 0)) := rfl
theorem test_decode_and : decode [12, 32768, 12, 10] = .ok (.and (.reg 0) (.lit 12) (.lit 10)) := rfl
theorem test_decode_or : decode [13, 32768, 32769, 1] = .ok (.or (.reg 0) (.reg 1) (.lit 1)) := rfl
theorem test_decode_not : decode [14, 32768, 21845] = .ok (.not (.reg 0) (.lit 21845)) := rfl
theorem test_decode_rmem : decode [15, 32771, 32769] = .ok (.rmem (.reg 3) (.reg 1)) := rfl
theorem test_decode_wmem : decode [16, 31, 32768] = .ok (.wmem (.lit 31) (.reg 0)) := rfl
theorem test_decode_call : decode [17, 300] = .ok (.call (.lit 300)) := rfl
theorem test_decode_ret : decode [18] = .ok .ret := rfl
theorem test_decode_out : decode [19, 321] = .ok (.out (.lit 321)) := rfl
theorem test_decode_in : decode [20, 32775] = .ok (.in_ (.reg 7)) := rfl
theorem test_decode_noop : decode [21] = .ok .noop := rfl
theorem test_decode_unknown : decode [22, 40000] = .error (.unknownOpcode 22) := rfl
/-- The bytes of program P1's image (E7): low byte first. -/
theorem test_decode_bytes : decodeBytes [0x01, 0x00, 0x00, 0x80, 0x05, 0x00] = .ok (.set (.reg 0) (.lit 5)) := rfl
/-- Bit 0 of a table word is bit 0 of the first word. -/
theorem test_decode_table_word : decodeTableWord 16 21 = some .noop := by decide
/-- A row's operand words of zeros are literals 0. -/
theorem test_decode_table_row : decodeTableWord 16 1 = some (.set (.lit 0) (.lit 0)) := by decide
theorem test_step_table_row :
    step (State.reset.withFetchWord 16 19) = exec (.out (.lit 0)) (State.reset.withFetchWord 16 19) := rfl
theorem test_encode_words : encode (.eq (.reg 2) (.reg 0) (.lit 16960)) = [4, 32770, 32768, 16960] := by decide

/-! ## One step of each instruction -/

/-- V2 -/
theorem test_halt : (nextOf (step { start 100 [0] with stack := [5, 6] })).map
    (fun t => (t.running, t.fault, t.stack)) = some (false, none, [5, 6]) := by decide
/-- V4 -/
theorem test_noop_no_wrap : regsPc (start 32767 [21]) = some ([0, 0, 0, 0, 0, 0, 0, 0], 32768) := by decide
/-- V13 -/
theorem test_set_all_bits : regsPc ((start 100 [1, 32770, 32769]).setReg 1 40000) =
    some ([0, 40000, 40000, 0, 0, 0, 0, 0], 103) := by decide
/-- V22 -/
theorem test_set_literal_slot : faultPc (start 100 [1, 5, 6]) =
    some (some ⟨.typeMismatch, 100, 5⟩, false, 100) := by decide
/-- V16 -/
theorem test_push : stackPc { (start 100 [2, 32770]).setReg 2 77 with stack := [9] } = some ([77, 9], 102) := by
  decide
/-- V17 -/
theorem test_pop : (nextOf (step { start 100 [3, 32768] with stack := [33, 22, 11] })).map
    (fun t => (t.getReg 0, t.stack, t.pc)) = some (33, [22, 11], 102) := by decide
/-- V18 -/
theorem test_pop_empty : faultPc (start 100 [3, 32768]) =
    some (some ⟨.stackUnderflow, 100, 0⟩, false, 100) := by decide
/-- V31 -/
theorem test_eq_false : regsPc (((start 100 [4, 32768, 32769, 8]).setReg 1 7).setReg 0 9) =
    some ([0, 7, 0, 0, 0, 0, 0, 0], 104) := by decide
/-- V33 -/
theorem test_eq_all_bits : regsPc (((start 100 [4, 32768, 32769, 0]).setReg 1 32768).setReg 0 5) =
    some ([0, 32768, 0, 0, 0, 0, 0, 0], 104) := by decide
/-- V34 -/
theorem test_gt : regsPc (start 100 [5, 32768, 5, 3]) = some ([1, 0, 0, 0, 0, 0, 0, 0], 104) := by decide
/-- V38 -/
theorem test_gt_unsigned : regsPc ((start 100 [5, 32768, 32769, 32767]).setReg 1 40000) =
    some ([1, 40000, 0, 0, 0, 0, 0, 0], 104) := by decide
/-- V42 -/
theorem test_jmp_out_of_range : faultPc ((start 100 [6, 32769]).setReg 1 32768) =
    some (none, true, 32768) := by decide
/-- V44 -/
theorem test_jt_taken : regsPc ((start 20 [7, 32768, 50]).setReg 0 3) =
    some ([3, 0, 0, 0, 0, 0, 0, 0], 50) := by decide
/-- V46 -/
theorem test_jt_untaken_faults : faultPc (start 20 [7, 0, 40000]) =
    some (some ⟨.invalidWord, 20, 40000⟩, false, 20) := by decide
/-- V49 -/
theorem test_jf_taken : regsPc (start 20 [8, 32768, 50]) = some ([0, 0, 0, 0, 0, 0, 0, 0], 50) := by decide
/-- V50 -/
theorem test_jf_untaken : regsPc ((start 20 [8, 32768, 50]).setReg 0 1) =
    some ([1, 0, 0, 0, 0, 0, 0, 0], 23) := by decide
/-- V53 -/
theorem test_call : stackPc { (start 10 [17, 32769]).setReg 1 7000 with stack := [1] } =
    some ([12, 1], 7000) := by decide
/-- V54 -/
theorem test_call_at_top : stackPc (start 32766 [17, 5]) = some ([32768], 5) := by decide
/-- V57 -/
theorem test_ret : stackPc { start 305 [18] with stack := [12, 7] } = some ([7], 12) := by decide
/-- V56 -/
theorem test_ret_empty : faultPc (start 100 [18]) = some (none, false, 100) := by decide
/-- V70 -/
theorem test_add_wraps : regsPc ((start 100 [9, 32768, 32769, 15]).setReg 1 32758) =
    some ([5, 32758, 0, 0, 0, 0, 0, 0], 104) := by decide
/-- V75 -/
theorem test_add_wide : regsPc ((start 100 [9, 32768, 32769, 32769]).setReg 1 65535) =
    some ([32766, 65535, 0, 0, 0, 0, 0, 0], 104) := by decide
/-- V77 -/
theorem test_mult : regsPc (start 100 [10, 32768, 1000, 1000]) =
    some ([16960, 0, 0, 0, 0, 0, 0, 0], 104) := by decide
/-- V82 -/
theorem test_mult_wide : regsPc ((start 100 [10, 32768, 32769, 32769]).setReg 1 65535) =
    some ([1, 65535, 0, 0, 0, 0, 0, 0], 104) := by decide
/-- V91 -/
theorem test_mod : regsPc ((start 100 [11, 32768, 32769, 32767]).setReg 1 65535) =
    some ([1, 65535, 0, 0, 0, 0, 0, 0], 104) := by decide
/-- V88 -/
theorem test_mod_zero : faultPc (start 100 [11, 32768, 17, 0]) =
    some (some ⟨.divideByZero, 100, 0⟩, false, 100) := by decide
/-- V95 -/
theorem test_and : regsPc ((start 100 [12, 32768, 32769, 32767]).setReg 1 40000) =
    some ([7232, 40000, 0, 0, 0, 0, 0, 0], 104) := by decide
/-- V99 -/
theorem test_or : regsPc ((start 100 [13, 32768, 32769, 1]).setReg 1 32768) =
    some ([32769, 32768, 0, 0, 0, 0, 0, 0], 104) := by decide
/-- V101 -/
theorem test_not : regsPc (start 100 [14, 32768, 21845]) = some ([10922, 0, 0, 0, 0, 0, 0, 0], 103) := by decide
/-- V104 -/
theorem test_not_drops_bit : regsPc ((start 100 [14, 32768, 32769]).setReg 1 32768) =
    some ([32767, 32768, 0, 0, 0, 0, 0, 0], 103) := by decide
/-- V114 -/
theorem test_rmem_own_word : regsPc (start 100 [15, 32768, 100]) = some ([15, 0, 0, 0, 0, 0, 0, 0], 103) := by
  decide
/-- V113 -/
theorem test_rmem_out_of_bounds : faultPc ((start 100 [15, 32768, 32769]).setReg 1 32768) =
    some (some ⟨.outOfBounds, 100, 32768⟩, false, 100) := by decide
/-- V120 -/
theorem test_wmem : (nextOf (step (((start 100 [16, 32768, 32769]).setReg 0 2000).setReg 1 32769))).map
    (fun t => (t.mem.readWord 2000, t.pc)) = some (32769, 103) := by decide
/-- V125 -/
theorem test_wmem_out_of_bounds : faultPc ((start 100 [16, 32768, 32768]).setReg 0 65535) =
    some (some ⟨.outOfBounds, 100, 65535⟩, false, 100) := by decide
/-- V132 -/
theorem test_out : (nextOf (step (start 100 [19, 321]))).map (fun t => (t.output, t.pc)) = some ([65], 102) := by
  decide
/-- V138 -/
theorem test_in_zero_extends : (nextOf (step { start 100 [20, 32768] with inbuf := [255] })).map
    (fun t => (t.getReg 0, t.inbuf, t.pc)) = some (255, [], 102) := by decide
/-- V140 -/
theorem test_in_fault_consumes_nothing : (nextOf (step { start 100 [20, 5] with inbuf := [104] })).map
    (fun t => (t.fault, t.inbuf)) = some (some ⟨.typeMismatch, 100, 5⟩, [104]) := by decide
/-- V139 -/
theorem test_in_blocked : step (start 100 [20, 32768]) = .next (start 100 [20, 32768]) := rfl
/-- The escape byte, `line` and its end, of a command `c`. -/
def commandLine (line : List Byte) (c : DebugCommand) : List StreamItem :=
  .byte Config.escapeByte :: (line.map .byte ++ [.lineEnd 10 c])
theorem commandAt (line : List Byte) (c : DebugCommand) : CommandAt (commandLine line c) c [] :=
  ⟨.byte Config.escapeByte, line, 10, rfl, rfl⟩
/-- E9, second row: the line `set 0 42` while `in r1` is blocked. -/
theorem test_in_debug_set :
    (nextOf (step { start 100 [20, 32769] with
        stream := commandLine [115, 101, 116, 32, 48, 32, 52, 50] (.set 0 42) })).map
      (fun t => (t.x.toList, t.pc, t.stream)) = some ([42, 0, 0, 0, 0, 0, 0, 0], 100, []) := by
  refine (congrArg (fun o => (nextOf o).map _) (exec_in_command (a := .reg 1) rfl rfl (commandAt _ _))).trans ?_
  decide
/-- Rule R205: the escape byte and a part of the line after it change nothing. -/
theorem test_in_line_not_ended (b : Byte) :
    exec (.in_ (.reg 1)) { State.reset with stream := [.byte Config.escapeByte, .byte b] } =
      .next { State.reset with stream := [.byte Config.escapeByte, .byte b] } :=
  exec_in_awaits rfl rfl (.inr ⟨.byte Config.escapeByte, [b], rfl, rfl⟩)
/-- V143: a byte of the Input Buffer is never taken for an escape. -/
theorem test_in_buffered_escape : step { start 100 [20, 32768] with inbuf := [Config.escapeByte] } =
    .next (((start 100 [20, 32768]).setReg 0 (Config.escapeByte.setWidth 16)).setPc 102) := rfl
/-- V142, for every byte but the escape byte. -/
theorem test_in_stream_byte (h : (120 : Byte) ≠ Config.escapeByte) :
    (nextOf (step { start 100 [20, 32768] with stream := [.byte 120] })).map
      (fun t => (t.getReg 0, t.pc, t.stream)) = some (120, 102, []) := by
  refine (congrArg (fun o => (nextOf o).map _) (exec_in_item (a := .reg 0) (e := .byte 120) rfl rfl rfl h)).trans ?_
  decide

/-! ## Fetch and operand faults -/

/-- V59 -/
theorem test_fetch_out_of_bounds : faultPc { State.reset with pc := 32768 } =
    some (some ⟨.outOfBounds, 32768, 32768⟩, false, 32768) := by decide
/-- V60 -/
theorem test_slot_out_of_bounds : faultPc (start 32766 [1, 32768, 5]) =
    some (some ⟨.outOfBounds, 32766, 32768⟩, false, 32766) := by decide
/-- V61 -/
theorem test_slot_order : faultPc (start 32766 [1, 5, 5]) =
    some (some ⟨.typeMismatch, 32766, 5⟩, false, 32766) := by decide
/-- V65 -/
theorem test_unknown_opcode : faultPc (start 100 [65535]) =
    some (some ⟨.unknownOpcode, 100, 65535⟩, false, 100) := by decide
/-- R110 -/
theorem test_terminal : step { State.reset with running := false } = .fault .terminal := rfl

/-! ## Load -/

/-- The three-byte image of spec/95_test_vectors.md section 2.9: an odd trailing byte is a low byte. -/
theorem test_load_odd : (nextOf (loadImage [0x15, 0x00, 0x07] none)).map
    (fun t => (t.mem.readWord 0, t.mem.readWord 1, t.mem.readWord 2)) = some (21, 7, 0) := by decide
/-- V154: word 12345 is the bytes 0x39, 0x30. -/
theorem test_byte_order : (lowByte 12345, highByte 12345) = (0x39, 0x30) := by decide
/-- R264: the empty image is the reset state, whose first step is the halt at address 0. -/
theorem test_empty_image : loadImage [] none = .next State.reset ∧ fetch State.reset = .ok .halt := ⟨rfl, rfl⟩

/-! ## Witnesses: states and operands that meet the statements' hypotheses -/

theorem escape_succ_ne : Config.escapeByte + 1 ≠ Config.escapeByte := by
  generalize Config.escapeByte = e
  revert e
  decide

theorem test_witness_DecodeAfterEncode :
    (Instr.add (.reg 7) (.lit 32767) (.lit 0)).wf = true ∧ Instr.ret.wf = true := by decide
theorem test_witness_EncodeAfterDecode :
    (∃ i, decode [21] = .ok i) ∧ ∃ i, decode [9, 65535, 5] = .ok i := ⟨⟨_, rfl⟩, _, rfl⟩
/-- The boundaries of rule R82's ranges. -/
theorem test_witness_ClassifyByRange :
    classify 0 = .lit 0 ∧ classify 32767 = .lit 32767 ∧ classify 32768 = .reg 0 ∧ classify 32775 = .reg 7 ∧
      classify 32776 = .invalid 32776 ∧ classify 65535 = .invalid 65535 := by decide
theorem test_witness_OpcodeWordSelectsInstruction :
    decode [21] = .ok .noop ∧ (22 : Word).toNat = 22 ∧ decode [22] = .error (.unknownOpcode 22) := ⟨rfl, rfl, rfl⟩
theorem test_witness_UnknownOpcodeIsFatal :
    (start 100 [22]).running = true ∧ (start 100 [22]).pc.toNat < 32768 ∧
      22 ≤ ((start 100 [22]).mem.readWord (start 100 [22]).pc.toNat).toNat := by decide
/-- A slot beyond memory, and one of each class. -/
theorem test_witness_ResolveRegOfSlot :
    (start 32767 [3]).pc.toNat < 32768 ∧ 32768 ≤ (start 32767 [3]).pc.toNat + 1 ∧
      (start 32766 [3, 32775]).pc.toNat + 1 < 32768 ∧
      (start 32766 [3, 32775]).mem.readWord 32767 = 32775 ∧
      (start 10 [1, 32776, 32767]).mem.readWord 11 = 32776 ∧
      (start 10 [1, 32776, 32767]).mem.readWord 12 = 32767 := by decide
theorem test_witness_ResolveValOfSlot :
    (start 32765 [9, 32768, 1]).pc.toNat + 3 = 32768 ∧
      (start 10 [9, 0, 32768, 65535]).mem.readWord 11 = 0 ∧
      (start 10 [9, 0, 32768, 65535]).mem.readWord 12 = 32768 ∧
      (start 10 [9, 0, 32768, 65535]).mem.readWord 13 = 65535 := by decide
theorem test_witness_MemReadRule : 32768 ≤ (32768 : Word).toNat ∧ (32767 : Word).toNat < 32768 := by decide
theorem test_witness_MemWriteRule :
    (start 10 [1, 2, 3]).mem.wf ∧ 32768 ≤ (32768 : Word).toNat ∧ (32767 : Word).toNat < 32768 := by decide
/-- Written in two orders. -/
theorem test_witness_SameBytesSameMemory :
    Memory.wf (Memory.writeWord (Memory.writeWord [] 3 7) 1 256) ∧
      Memory.wf (Memory.writeWord (Memory.writeWord [] 1 256) 3 7) ∧
      Memory.writeWord (Memory.writeWord [] 3 7) 1 256 = [(3, 1), (6, 7)] := by decide
theorem test_witness_RawImageReloads : (start 10 [1, 32768, 5]).mem.wf := by decide
theorem test_witness_LoadImagePlacesWords :
    ([1, 2, 3] : List Byte).length ≤ 65536 ∧ 65536 < (List.replicate 65537 (0 : Byte)).length := by
  rw [List.length_replicate]
  decide
/-- Legal operands of a reg and a val slot, and an operand fault in each slot of the format RVV. -/
theorem test_witness_RuleRVV :
    (Operand.reg 7).legal .reg = true ∧ (Operand.lit 32767).legal .val = true ∧
      (Operand.reg 0).legal .val = true ∧
      State.reset.operandFault 1 [(.reg, .lit 5), (.val, .invalid 40000), (.val, .lit 5)] =
        some ⟨.typeMismatch, 5⟩ ∧
      State.reset.operandFault 1 [(.reg, .reg 0), (.val, .invalid 40000), (.val, .lit 5)] =
        some ⟨.invalidWord, 40000⟩ ∧
      { State.reset with pc := 32765 }.operandFault 1 [(.reg, .reg 0), (.val, .lit 5), (.val, .absent)] =
        some ⟨.outOfBounds, 32768⟩ := by decide
/-- The same for the formats RV (`set`, `not`, `rmem`), VV (`jt`, `jf`, `wmem`), V and R. -/
theorem test_witness_RulesRVVVAndOne :
    State.reset.operandFault 1 [(.reg, .reg 3), (.val, .invalid 32776)] = some ⟨.invalidWord, 32776⟩ ∧
      State.reset.operandFault 1 [(.val, .lit 0), (.val, .invalid 32776)] = some ⟨.invalidWord, 32776⟩ ∧
      State.reset.operandFault 1 [(.val, .invalid 65535)] = some ⟨.invalidWord, 65535⟩ ∧
      State.reset.operandFault 1 [(.reg, .lit 5)] = some ⟨.typeMismatch, 5⟩ ∧
      State.reset.operandFault 1 [(.val, .lit 5)] = none := by decide
/-- Operand faults, two of them at once, and the one that is taken. -/
theorem test_witness_OperandFaultsInOrder :
    State.reset.operandFaults 1 [(.reg, .lit 5), (.val, .invalid 40000)] =
        [⟨.typeMismatch, 5⟩, ⟨.invalidWord, 40000⟩] ∧
      State.reset.operandFault 1 (Instr.not (.lit 5) (.invalid 40000)).slots = some ⟨.typeMismatch, 5⟩ := by decide
/-- The states after a `noop` in the last word, a `jmp` and a `ret` to a word of 32768. -/
theorem test_witness_FetchIsChecked :
    (∃ t, exec .noop { State.reset with pc := 32767 } = .next t ∧ t.running = true ∧ t.pc = 32768) ∧
    (∃ t, exec (.jmp (.reg 1)) (State.reset.setReg 1 32768) = .next t ∧ t.running = true ∧ t.pc = 32768) ∧
    ∃ t, exec .ret { State.reset with stack := [32768] } = .next t ∧ t.running = true ∧ t.pc = 32768 :=
  ⟨⟨_, rfl, rfl, rfl⟩, ⟨_, rfl, rfl, rfl⟩, _, rfl, rfl, rfl⟩
theorem test_witness_HaltAndRet : State.reset.fault = none ∧ State.reset.stack = [] ∧
    { State.reset with stack := [12, 7] }.stack = [12, 7] := by decide
theorem test_witness_PopRule : (Operand.reg 7).legal .reg = true ∧ State.reset.stack = [] ∧
    { State.reset with stack := [33] }.stack = [33] := by decide
theorem test_witness_JtJfRules : (Operand.reg 0).legal .val = true ∧
    (State.reset.valueOf (.reg 0)).toNat = 0 ∧ ((State.reset.setReg 0 32768).valueOf (.reg 0)).toNat ≠ 0 := by decide
theorem test_witness_ModRule : (State.reset.valueOf (.reg 1)).toNat = 0 ∧
    ((State.reset.setReg 1 65535).valueOf (.reg 1)).toNat ≠ 0 := by decide
theorem test_witness_RmemRule : 32768 ≤ ((State.reset.setReg 1 32768).valueOf (.reg 1)).toNat ∧
    (State.reset.valueOf (.lit 32767)).toNat < 32768 := by decide
theorem test_witness_WmemRule : 32768 ≤ ((State.reset.setReg 1 65535).valueOf (.reg 1)).toNat ∧
    (State.reset.valueOf (.lit 32767)).toNat < 32768 ∧ (start 100 [16, 32767, 5]).mem.wf := by decide
theorem test_witness_InFromInputBuffer : (Operand.reg 0).legal .reg = true ∧
    { State.reset with inbuf := [104, 105] }.inbuf = [104, 105] := by decide
/-- Rules R235, R236 and R240: what is reported of a line that is no command, of a `set` at and beyond its bounds, and
of a `save` to a file that exists. -/
theorem test_debug_reports :
    debugReport (fun _ => true) State.reset (.malformed "halt") = .noSuchCommand ∧
    debugReport (fun _ => true) State.reset (.set 7 65535) = .registerSet ∧
    debugReport (fun _ => true) State.reset (.set 8 0) = .setOutOfRange ∧
    debugReport (fun _ => true) State.reset (.set 0 65536) = .setOutOfRange ∧
    debugReport (fun _ => true) State.reset (.save "image") = .refusedOverwrite := ⟨rfl, rfl, rfl, rfl, rfl⟩
/-- A register write at its bounds, a `set` out of bounds and the other commands. -/
theorem test_witness_DebugCommandEffect :
    DebugCommand.set 7 65535 = .set (7 : Fin 8).val (65535 : Word).toNat ∧
    (∀ (r : Fin 8) (v : Word), DebugCommand.set 8 0 ≠ .set r.val v.toNat) ∧
    ∀ (r : Fin 8) (v : Word), DebugCommand.dump ≠ .set r.val v.toNat := by
  refine ⟨rfl, fun r v h => ?_, fun r v h => by cases h⟩
  injection h with h1 h2
  have := r.isLt
  omega
/-- A byte that is not the escape byte, a whole command line, and the three ways to wait. -/
theorem test_witness_InFromInteractiveStream :
    (∃ e rest, { State.reset with stream := [.byte (Config.escapeByte + 1)] }.stream = e :: rest ∧
      e.value ≠ Config.escapeByte) ∧
    CommandAt { State.reset with stream := commandLine [120] .dump }.stream .dump [] ∧
    State.reset.inbuf = [] ∧ AwaitsDelivery State.reset.stream ∧
    AwaitsDelivery { State.reset with stream := [.byte Config.escapeByte] }.stream ∧
    AwaitsDelivery { State.reset with stream := [.lineEnd Config.escapeByte .dump, .byte 120] }.stream :=
  ⟨⟨_, _, rfl, escape_succ_ne⟩, commandAt _ _, rfl, .inl rfl, .inr ⟨_, [], rfl, rfl⟩, .inr ⟨_, [120], rfl, rfl⟩⟩
/-- Waiting with nothing delivered, and waiting for the end of a line. -/
theorem test_witness_WaitingChangesNothing :
    (start 100 [20, 32768]).Waiting ∧ (start 100 [20, 32768]).stream = [] ∧
      fetch (start 100 [20, 32768]) = .ok (.in_ (.reg 0)) ∧ Config.escapeByte + 1 ≠ Config.escapeByte ∧
      { start 100 [20, 32768] with stream := [.byte Config.escapeByte] }.Waiting :=
  ⟨⟨rfl, ⟨0, rfl⟩, rfl, .inl rfl⟩, rfl, rfl, escape_succ_ne, rfl, ⟨0, rfl⟩, rfl, .inr ⟨_, [], rfl, rfl⟩⟩
theorem test_witness_StepRunsDecodedInstruction :
    (start 100 [21]).running = true ∧ decode (start 100 [21]).fetchWords = .ok .noop := ⟨rfl, rfl⟩
/-- Each check of rule R104 fails somewhere, and all pass somewhere (V59, V63, V62, V21, V20, V18, V88, V113). -/
theorem test_witness_StepChecksInOrder :
    { State.reset with pc := 32768 }.failedCheck = some ⟨.outOfBounds, 32768⟩ ∧
      (start 100 [22]).failedCheck = some ⟨.unknownOpcode, 22⟩ ∧
      (start 32767 [2]).failedCheck = some ⟨.outOfBounds, 32768⟩ ∧
      (start 100 [3, 32776]).failedCheck = some ⟨.invalidWord, 32776⟩ ∧
      (start 100 [3, 5]).failedCheck = some ⟨.typeMismatch, 5⟩ ∧
      (start 100 [3, 32768]).failedCheck = some ⟨.stackUnderflow, 0⟩ ∧
      (start 100 [11, 32768, 17, 0]).failedCheck = some ⟨.divideByZero, 0⟩ ∧
      ((start 100 [15, 32768, 32769]).setReg 1 32768).failedCheck = some ⟨.outOfBounds, 32768⟩ ∧
      (start 100 [9, 32768, 1, 2]).failedCheck = none := by decide
/-- A running and a faulted state that meet the invariant, and a step of the former. -/
theorem test_witness_StepKeepsInvariant :
    State.reset.Inv ∧ (State.reset.takeFault ⟨.unknownOpcode, 22⟩).Inv ∧ ∃ t, step State.reset = .next t :=
  ⟨⟨Memory.nil_wf, fun _ h => nomatch h⟩,
    ⟨Memory.nil_wf, fun f h => by injection h with h; subst h; exact ⟨rfl, rfl, by show 22 ≤ (22 : Word).toNat; decide⟩⟩, _, rfl⟩
theorem test_witness_RunEndsOnlyByHaltRetOrFault :
    (∃ t, step State.reset = .next t ∧ t.running = false) ∧
    (∃ t, step (start 100 [18]) = .next t ∧ t.running = false) ∧
    ∃ t, step (start 100 [22]) = .next t ∧ t.running = false := ⟨⟨_, rfl, rfl⟩, ⟨_, rfl, rfl⟩, _, rfl, rfl⟩
theorem test_witness_FaultHasNoPartialEffect :
    ∃ t, exec (.pop (.reg 0)) State.reset = .next t ∧ t.fault ≠ State.reset.fault := ⟨_, rfl, by decide⟩
theorem test_witness_RegisterWriters :
    (∃ t, exec (.set (.reg 3) (.lit 5)) State.reset = .next t ∧ t.getReg 3 ≠ State.reset.getReg 3) ∧
    ∃ t, exec (.in_ (.reg 1)) { State.reset with stream := commandLine [] (.set 0 42) } = .next t ∧
      t.getReg 0 ≠ State.reset.getReg 0 :=
  ⟨⟨_, rfl, by decide⟩, _, exec_in_command rfl rfl (commandAt _ _), by decide⟩
theorem test_witness_MemoryWriters :
    State.reset.mem.wf ∧ ∃ t, exec (.wmem (.lit 32767) (.lit 256)) State.reset = .next t ∧
      t.mem.readByte 65535 ≠ State.reset.mem.readByte 65535 := ⟨Memory.nil_wf, _, rfl, by decide⟩
theorem test_witness_StackDiscipline :
    (∃ t, exec (.push (.lit 7)) State.reset = .next t ∧ t.stack ≠ State.reset.stack) ∧
    ∃ t, exec .ret { State.reset with stack := [12] } = .next t ∧ t.stack ≠ [12] :=
  ⟨⟨_, rfl, by decide⟩, _, rfl, by decide⟩
theorem test_witness_InputOutputDiscipline :
    (∃ t, exec (.in_ (.reg 0)) { State.reset with inbuf := [104] } = .next t ∧ t.inbuf ≠ [104]) ∧
    (∃ t, exec (.in_ (.reg 0)) { State.reset with stream := commandLine [] .dump } = .next t ∧
      t.stream ≠ commandLine [] .dump) ∧
    ∃ t, exec (.out (.lit 65)) State.reset = .next t ∧ t.output ≠ State.reset.output :=
  ⟨⟨_, rfl, by decide⟩, ⟨_, exec_in_command rfl rfl (commandAt _ _), by simp [commandLine, State.runCommand]⟩, _, rfl,
    by decide⟩
theorem test_witness_ProgramCounterChange :
    (start 32767 [21]).pc.toNat < 32768 ∧ (start 32767 [21]).fault = none ∧
      ∃ t, exec .noop (start 32767 [21]) = .next t ∧ t.fault = none ∧ t.pc.toNat = 32768 :=
  ⟨by decide, rfl, _, rfl, rfl, by decide⟩
theorem test_witness_ComputedRange :
    (Instr.mod (.reg 0) (.lit 17) (.lit 5)).wf = true ∧
      (∃ t, exec (.mod (.reg 0) (.lit 17) (.lit 5)) State.reset = .next t) ∧
      (State.reset.valueOf (.lit 5)).toNat ≠ 0 := ⟨by decide, ⟨_, rfl⟩, by decide⟩
theorem test_witness_NotTwiceRestores :
    ((State.reset.setReg 2 32767).getReg 2).toNat < 32768 ∧
      ∃ t, exec (.not (.reg 0) (.reg 2)) (State.reset.setReg 2 32767) = .next t ∧
        ∃ u, exec (.not (.reg 1) (.reg 0)) t = .next u := ⟨by decide, _, rfl, _, rfl⟩
theorem test_witness_CallThenRetResumes :
    (Operand.lit 300).legal .val = true ∧ ∃ t, exec (.call (.lit 300)) (start 10 [17, 300]) = .next t ∧
      ∃ v, exec .ret t = .next v := ⟨by decide, _, rfl, _, rfl⟩
theorem test_witness_LoadAfterStore :
    State.reset.mem.wf ∧ (Operand.lit 1000).legal .val = true ∧ (Operand.lit 12345).legal .val = true ∧
      (State.reset.valueOf (.lit 1000)).toNat < 32768 ∧
      ∃ t, exec (.wmem (.lit 1000) (.lit 12345)) State.reset = .next t ∧
        ∃ u, exec (.rmem (.reg 0) (.lit 1000)) t = .next u :=
  ⟨Memory.nil_wf, by decide, by decide, by decide, _, rfl, _, rfl⟩
/-- V122 -/
theorem test_witness_StoreSeenByNextFetch :
    (start 100 [16, 103, 21]).mem.wf ∧ (start 100 [16, 103, 21]).running = true ∧
      (start 100 [16, 103, 21]).pc.toNat + 3 < 32768 ∧
      fetch (start 100 [16, 103, 21]) = .ok (.wmem (.lit 103) (.lit 21)) ∧
      ((start 100 [16, 103, 21]).valueOf (.lit 103)).toNat = (start 100 [16, 103, 21]).pc.toNat + 3 ∧
      ∃ t, step (start 100 [16, 103, 21]) = .next t :=
  ⟨by decide, rfl, by decide, rfl, by decide, _, rfl⟩
/-- After an `out`, one more step: the resumed session emits what the original does. -/
theorem test_witness_SnapshotResumes :
    { start 100 [19, 65] with output := [72] }.fault = none ∧
      (∃ u, loadSnapshot { start 100 [19, 65] with output := [72] }.snapshot none = .next u) ∧
      ∃ t, runSteps 1 { start 100 [19, 65] with output := [72] } = .next t ∧ t.output = [72, 65] :=
  ⟨rfl, ⟨_, rfl⟩, _, rfl, rfl⟩

end Sys2Proof.Tests
end

section
/-! PROOFS. `MemRead` and `MemWrite` (spec/20_memory.md rules R52 and R53). -/

namespace Sys2Proof.Machine

/-- A new memory alone is a change of memory alone. -/
theorem State.onlyChanges_withMem (s : State) (m : Memory) :
    s.onlyChanges { s with mem := m } [.mem] := by
  intro p hp
  cases p with
  | mem => exact absurd (List.mem_singleton.2 rfl) hp
  | regs => exact s.withMem_getReg m
  | stack | running | fault | inbuf | output | stream => rfl

/-- Rule R51: a cell's 16 bits are its high byte times 256 plus its low byte. -/
theorem Memory.readWord_toNat (m : Memory) (a : Nat) :
    (m.readWord a).toNat = (m.readByte (2 * a + 1)).toNat * 256 + (m.readByte (2 * a)).toNat :=
  wordOfBytes_toNat _ _

theorem Memory.readByte_writeWord_low {m : Memory} (a : Nat) (v : Word)
    (h : m.Pairwise fun c d => c.1 < d.1) : (m.writeWord a v).readByte (2 * a) = lowByte v := by
  rw [Memory.readByte_writeWord a v h, if_pos rfl]

theorem Memory.readByte_writeWord_high {m : Memory} (a : Nat) (v : Word)
    (h : m.Pairwise fun c d => c.1 < d.1) : (m.writeWord a v).readByte (2 * a + 1) = highByte v := by
  rw [Memory.readByte_writeWord a v h, if_neg (by omega), if_pos rfl]

theorem Memory.readByte_writeWord_other {m : Memory} {a q : Nat} (v : Word)
    (h : m.Pairwise fun c d => c.1 < d.1) (hlow : q ≠ 2 * a) (hhigh : q ≠ 2 * a + 1) :
    (m.writeWord a v).readByte q = m.readByte q := by
  rw [Memory.readByte_writeWord a v h, if_neg hlow, if_neg hhigh]

/-- Rule R53: the written cell reads as the value. -/
theorem memRead_writeWord_same {s : State} {addr : Word} (v : Word)
    (h : s.mem.Pairwise fun c d => c.1 < d.1) (ha : addr.toNat < 32768) :
    memRead { s with mem := s.mem.writeWord addr.toNat v } addr = .ok v := by
  rw [memRead_of_lt _ ha, Memory.readWord_writeWord _ v h, if_pos rfl]

/-- Rule R53: every other address reads as before, the out-of-bounds ones included. -/
theorem memRead_writeWord_other {s : State} {addr q : Word} (v : Word)
    (h : s.mem.Pairwise fun c d => c.1 < d.1) (hq : q ≠ addr) :
    memRead { s with mem := s.mem.writeWord addr.toNat v } q = memRead s q := by
  have hne : q.toNat ≠ addr.toNat := fun he => hq (BitVec.eq_of_toNat_eq he)
  by_cases hlt : q.toNat < 32768
  · rw [memRead_of_lt _ hlt, memRead_of_lt _ hlt, Memory.readWord_writeWord _ v h, if_neg hne]
  · rw [memRead_of_ge _ (Nat.not_lt.1 hlt), memRead_of_ge _ (Nat.not_lt.1 hlt)]

/-- Settles O10: rule R53's clauses are the readings of the written memory, word by word and byte by byte. -/
theorem memWriteRule : Obligations.MemWriteRule := by
  intro s addr v ⟨hrising, _⟩
  refine ⟨memWrite_of_ge s v, fun hlt => ⟨_, memWrite_of_lt s v hlt, ?same, ?other, ?low, ?high, ?bytes, rfl, ?frame⟩⟩
  case same => exact memRead_writeWord_same v hrising hlt
  case other => exact fun q hq => memRead_writeWord_other v hrising hq
  case low => rw [Memory.readByte_writeWord_low _ v hrising, lowByte_toNat]
  case high => rw [Memory.readByte_writeWord_high _ v hrising, highByte_toNat]
  case bytes => exact fun q hlow hhigh => Memory.readByte_writeWord_other v hrising hlow hhigh
  case frame => exact s.onlyChanges_withMem _

/-- Settles O9: below 32768 `MemRead` gives the cell, whose bits are those of its two bytes. -/
theorem memReadRule : Obligations.MemReadRule := by
  intro s addr
  exact ⟨memRead_of_ge s, fun hlt => ⟨_, memRead_of_lt s hlt, s.mem.readWord_toNat _⟩⟩

end Sys2Proof.Machine
end

section
/-! PROOFS. The opcode word: which words are opcodes, and what one selects (spec/30_encoding.md rules R81, R84,
R85 and R86). -/

namespace Sys2Proof.Machine

/-! ## The opcode map -/

/-- Rule R85: the map ends at 21. -/
theorem instrOf_eq_none_iff {n : Nat} {a b c : Operand} : instrOf n a b c = none ↔ 22 ≤ n := by
  refine ⟨fun hnone => ?_, fun hge => ?_⟩
  · by_contra hlt
    rw [Nat.not_le] at hlt
    interval_cases n <;> cases hnone
  · unfold instrOf
    split
    case h_23 => rfl
    all_goals omega

/-- Rules R84 and R85: the instruction of an opcode number is encoded with that number, and its slots have the
kinds of that number's format. -/
theorem instrOf_head_kinds {n : Nat} {a b c : Operand} {i : Instr} (h : instrOf n a b c = some i) :
    (encode i).head? = some (BitVec.ofNat 16 n) ∧ kindsOf n = some (i.slots.map Prod.fst) := by
  unfold instrOf at h
  split at h <;> cases h <;> exact ⟨rfl, rfl⟩

/-! ## Decoding an opcode word -/

variable {op : Word} {ws : List Word}

theorem decode_cons_eq_ok_iff {i : Instr} :
    decode (op :: ws) = .ok i ↔ instrOf op.toNat (slotAt ws 0) (slotAt ws 1) (slotAt ws 2) = some i := by
  rw [decode]
  split
  · next j hj => simp [hj]
  · next hn => simp [hn]

/-- Rule R86: the words after an unknown opcode are not looked at. -/
theorem decode_cons_unknownOpcode (h : 22 ≤ op.toNat) : decode (op :: ws) = .error (.unknownOpcode op) := by
  rw [decode, instrOf_eq_none_iff.2 h]

theorem exists_decode_cons_eq_ok_iff : (∃ i, decode (op :: ws) = .ok i) ↔ op.toNat ≤ 21 := by
  simp only [decode_cons_eq_ok_iff, ← Option.ne_none_iff_exists', ne_eq, instrOf_eq_none_iff]
  omega

/-- Settles O5: `decode` is the opcode map on all 16 bits of the first word, and each entry of the map keeps its
own number and kinds. -/
theorem opcodeWordSelectsInstruction : Obligations.OpcodeWordSelectsInstruction := by
  refine ⟨fun _ _ => exists_decode_cons_eq_ok_iff, fun _ _ => decode_cons_unknownOpcode, fun op ws i h => ?_⟩
  have hmap := instrOf_head_kinds (decode_cons_eq_ok_iff.1 h)
  rwa [BitVec.ofNat_toNat, BitVec.setWidth_eq] at hmap

/-! ## A step on an unknown opcode -/

variable {s : State}

/-- The fetch of an unknown opcode takes that fault, even where no word follows it. -/
theorem fetch_unknownOpcode (hpc : s.pc.toNat < 32768) (hop : 22 ≤ (s.mem.readWord s.pc.toNat).toNat) :
    fetch s = .error ⟨.unknownOpcode, s.mem.readWord s.pc.toNat⟩ := by
  rw [fetch, fetchWords_eq_cons s hpc, decode_cons_unknownOpcode hop]

/-- Rule R106: a running machine takes the fault of its fetch. -/
theorem step_of_fetch_error {t : Trap} (hrun : s.running = true) (h : fetch s = .error t) :
    step s = raise t s := by
  rw [step, if_pos hrun, h]

/-- Settles O6: the fetch faults before any slot is read, and taking a fault leaves the Program Counter. -/
theorem unknownOpcodeIsFatal : Obligations.UnknownOpcodeIsFatal := by
  intro s hrun hpc hop
  have hstep := step_of_fetch_error hrun (fetch_unknownOpcode hpc hop)
  exact ⟨hstep, _, hstep, s.takeFault_running _, s.takeFault_pc _⟩

end Sys2Proof.Machine
end

section
/-! PROOFS. The Operand Resolver on the word of a slot (spec/30_encoding.md rules R82, R90 and R91). -/

namespace Sys2Proof.Machine

/-! ## Resolving a classified word, by range -/

variable {raw : Word} (k : Nat) (s : State)

theorem resolveReg_classify_invalid (h : 32776 ≤ raw.toNat) :
    resolveReg k s (classify raw) = .error ⟨.invalidWord, raw⟩ := by
  rw [classify_invalid h, resolveReg]

theorem resolveReg_classify_lit (h : raw.toNat < 32768) :
    resolveReg k s (classify raw) = .error ⟨.typeMismatch, raw⟩ := by
  rw [classify_lit h, resolveReg, lit_toNat h]

theorem resolveReg_classify_reg (r : Fin 8) (h : raw.toNat = 32768 + r.val) :
    resolveReg k s (classify raw) = .ok r := by
  rw [classify_reg r h, resolveReg]

theorem resolveVal_classify_invalid (h : 32776 ≤ raw.toNat) :
    resolveVal k s (classify raw) = .error ⟨.invalidWord, raw⟩ := by
  rw [classify_invalid h, resolveVal]

theorem resolveVal_classify_lit (h : raw.toNat < 32768) : resolveVal k s (classify raw) = .ok raw := by
  rw [classify_lit h, resolveVal, lit_toNat h]

theorem resolveVal_classify_reg (r : Fin 8) (h : raw.toNat = 32768 + r.val) :
    resolveVal k s (classify raw) = .ok (s.getReg r) := by
  rw [classify_reg r h, resolveVal]

/-- Settles O4: one form for each of rule R82's ranges. -/
theorem classifyByRange : Obligations.ClassifyByRange := by
  intro raw
  refine ⟨fun hlit => ⟨_, classify_lit hlit, ?_⟩, fun hlow hhigh => ?_, fun hinv k s =>
    ⟨resolveReg_classify_invalid k s hinv, resolveVal_classify_invalid k s hinv⟩⟩
  · rw [BitVec.toNat_setWidth, Nat.mod_eq_of_lt hlit]
  · exact ⟨⟨raw.toNat - 32768, by omega⟩, classify_reg _ (Nat.add_sub_cancel' hlow).symm, rfl⟩

/-! ## The slot at `pc + k` -/

variable {k s}

/-- The words after the opcode word are the cells after the Program Counter, as far as memory reaches. -/
theorem fetchWords_drop_one_getElem? {j : Nat} (hpc : s.pc.toNat < 32768) (hj : j < 3) :
    (s.fetchWords.drop 1)[j]? =
      if s.pc.toNat + 1 + j < 32768 then some (s.mem.readWord (s.pc.toNat + 1 + j)) else none := by
  rw [fetchWords_eq_cons s hpc, List.drop_one, List.tail_cons, wordsFrom_getElem?]
  simp only [hj, true_and]

theorem slot_eq_classify (h1 : 1 ≤ k) (h3 : k ≤ 3) (h : s.pc.toNat + k < 32768) :
    s.slot k = classify (s.mem.readWord (s.pc.toNat + k)) := by
  have haddr : s.pc.toNat + 1 + (k - 1) = s.pc.toNat + k := by omega
  rw [State.slot, slotAt, fetchWords_drop_one_getElem? (by omega) (by omega), haddr, if_pos h]

theorem slot_eq_absent (hpc : s.pc.toNat < 32768) (h1 : 1 ≤ k) (h3 : k ≤ 3) (h : 32768 ≤ s.pc.toNat + k) :
    s.slot k = .absent := by
  rw [State.slot, slotAt, fetchWords_drop_one_getElem? hpc (by omega), if_neg (by omega)]

/-- The address of a slot, as a word and as a number. -/
theorem pc_add_ofNat (s : State) (k : Nat) : s.pc + BitVec.ofNat 16 k = BitVec.ofNat 16 (s.pc.toNat + k) := by
  rw [BitVec.ofNat_add, BitVec.ofNat_toNat, BitVec.setWidth_eq]

/-- Settles O7: rule R90's checks, the slot's word first fetched and then resolved by its range. -/
theorem resolveRegOfSlot : Obligations.ResolveRegOfSlot := by
  intro s k hpc h1 h3
  refine ⟨fun hout => ?_, fun hin raw hraw => ?_⟩
  · rw [slot_eq_absent hpc h1 h3 hout, resolveReg, pc_add_ofNat]
  · rw [slot_eq_classify h1 h3 hin, ← hraw]
    exact ⟨resolveReg_classify_invalid k s, resolveReg_classify_lit k s, resolveReg_classify_reg k s⟩

/-- Settles O8: the same for rule R91, where a literal stands for itself and a register for its contents. -/
theorem resolveValOfSlot : Obligations.ResolveValOfSlot := by
  intro s k hpc h1 h3
  refine ⟨fun hout => ?_, fun hin raw hraw => ?_⟩
  · rw [slot_eq_absent hpc h1 h3 hout, resolveVal, pc_add_ofNat]
  · rw [slot_eq_classify h1 h3 hin, ← hraw]
    exact ⟨resolveVal_classify_invalid k s, resolveVal_classify_lit k s, resolveVal_classify_reg k s⟩

end Sys2Proof.Machine
end

section
/-! PROOFS. System (spec/41_system.md), with the frame of a Program Counter load and the fetch check that later
families share. -/

namespace Sys2Proof.Machine

/-- A new Program Counter alone is no change of any part. -/
theorem State.onlyChanges_setPc (s : State) (v : Word) : s.onlyChanges (s.setPc v) [] := by
  intro p _
  cases p with
  | mem => exact fun _ => rfl
  | regs => exact s.setPc_getReg v
  | stack | running | fault | inbuf | output | stream => rfl

/-- Rule R101: no word stands at an address of 32768 or more. -/
theorem fetch_outOfBounds {s : State} (hpc : 32768 ≤ s.pc.toNat) : fetch s = .error ⟨.outOfBounds, s.pc⟩ := by
  rw [fetch, fetchWords_eq_nil s hpc, decode]

/-- Whatever put the Program Counter there, the next step's fetch checks it. -/
theorem State.fetchIsChecked (t : State) : t.FetchIsChecked :=
  fun hrun hpc => step_of_fetch_error hrun (fetch_outOfBounds hpc)

/-- Settles O16: `noop` is the default advance, a Program Counter load, and the fetch check holds of every state. -/
theorem noopRule : Obligations.NoopRule := by
  refine ⟨fun rest => decode_cons_eq_ok_iff.2 rfl, fun s => ?_⟩
  exact ⟨_, exec_noop s, s.advance_pc 0, s.onlyChanges_setPc _, (s.advance 0).fetchIsChecked⟩

end Sys2Proof.Machine
end

section
/-! PROOFS. Move and stack (spec/42_move_stack.md), with what later families share: frames of updates done one
after the other, operand faults, and the completion of an instruction that writes one register. -/

namespace Sys2Proof.Machine

/-! ## Frames -/

variable {s t u : State}

theorem State.same_trans {p : Part} (hst : s.same t p) (htu : t.same u p) : s.same u p := by
  cases p with
  | mem | regs => exact fun q => (htu q).trans (hst q)
  | stack | running | fault | inbuf | output | stream => exact Eq.trans htu hst

/-- Two changes, one after the other, change what either does. -/
theorem State.onlyChanges_trans {ps qs : List Part} (hst : s.onlyChanges t ps) (htu : t.onlyChanges u qs) :
    s.onlyChanges u (qs ++ ps) := by
  intro p hp
  rw [List.mem_append, not_or] at hp
  exact State.same_trans (hst p hp.2) (htu p hp.1)

theorem State.onlyChanges_advance (n : Nat) {ps : List Part} (h : s.onlyChanges t ps) :
    s.onlyChanges (t.advance n) ps :=
  State.onlyChanges_trans h (t.onlyChanges_setPc _)

theorem State.onlyChanges_setReg (s : State) (r : Fin 8) (v : Word) : s.onlyChanges (s.setReg r v) [.regs] := by
  intro p hp
  cases p with
  | regs => exact absurd (List.mem_singleton.2 rfl) hp
  | mem => exact fun _ => rfl
  | stack | running | fault | inbuf | output | stream => rfl

/-- A new stack alone is a change of the stack alone. -/
theorem State.onlyChanges_withStack (s : State) (l : List Word) : s.onlyChanges { s with stack := l } [.stack] := by
  intro p hp
  cases p with
  | stack => exact absurd (List.mem_singleton.2 rfl) hp
  | mem => exact fun _ => rfl
  | regs => exact s.withStack_getReg l
  | running | fault | inbuf | output | stream => rfl

theorem State.onlyChanges_push (s : State) (v : Word) : s.onlyChanges (s.push v) [.stack] :=
  s.onlyChanges_withStack _

/-! ## Operands first, then the effect -/

variable {i : Instr} {slots : List (SlotKind × Operand)} {a : Operand}

theorem afterOperands_legal {effect : Host.Outcome State Fault Refusal}
    (h : ∀ p ∈ slots, p.2.legal p.1 = true) : afterOperands s slots effect = effect := by
  rw [afterOperands, (operandFault_none s).2 h]

/-- Rules R103 and R106: where operands have faults the first of them is taken, and no effect happens. -/
theorem raisesOperandFaults_of_exec {effect : State → Host.Outcome State Fault Refusal}
    (h : ∀ s, exec i s = afterOperands s slots (effect s)) : RaisesOperandFaults i slots := by
  intro s hfaults
  obtain ⟨t, ht⟩ := operandFault_of_faults s hfaults
  exact ⟨t, operandFault_mem s ht, by rw [h, afterOperands, ht, raise]⟩

/-- Writing one register and advancing past `n` operands completes an instruction of `1 + n` words. -/
theorem completesWriting_of_exec {d : Fin 8} {v : Word} {n : Nat}
    (h : exec i s = .next ((s.setReg d v).advance n)) : CompletesWriting i s d v.toNat (1 + n) [] := by
  refine ⟨_, h, ?written, ?others, (s.setReg d v).advance_pc n, ?frame⟩
  case written => rw [State.advance_getReg, State.setReg_getReg_same]
  case others => exact fun r hr => s.setReg_getReg_other v hr
  case frame => exact State.onlyChanges_advance n (s.onlyChanges_setReg d v)

/-! ## `set` -/

/-- Settles O18: on legal operands `set` is a register write and the advance past two operands. -/
theorem setRule : Obligations.SetRule := by
  refine ⟨fun wa wb rest => decode_cons_eq_ok_iff.2 rfl, fun a b =>
    ⟨raisesOperandFaults_of_exec fun s => exec_set s a b, fun s ha hb => ?_⟩⟩
  have hexec : exec (.set a b) s = .next ((s.setReg (regOf a) (s.valueOf b)).advance 2) := by
    rw [exec_set, afterOperands_legal (by simp [ha, hb])]
  exact completesWriting_of_exec hexec

/-! ## `push` and `pop` -/

theorem exec_push_legal (h : a.legal .val = true) :
    exec (.push a) s = .next ((s.push (s.valueOf a)).advance 1) := by
  rw [exec_push, afterOperands_legal (by simpa using h)]

/-- Settles O19: on a legal operand `push` is a push of its value and the advance past one operand. -/
theorem pushRule : Obligations.PushRule := by
  refine ⟨⟨fun wa rest => decode_cons_eq_ok_iff.2 rfl, fun a =>
    raisesOperandFaults_of_exec fun s => exec_push s a⟩, fun a s ha => ?_⟩
  exact ⟨_, exec_push_legal ha, rfl, (s.push _).advance_pc 1, State.onlyChanges_advance 1 (s.onlyChanges_push _)⟩

theorem exec_pop_empty (h : a.legal .reg = true) (hs : s.stack = []) :
    exec (.pop a) s = raise ⟨.stackUnderflow, 0⟩ s := by
  rw [exec_pop, afterOperands_legal (by simpa using h), hs, raise]

theorem exec_pop_cons {v : Word} {rest : List Word} (h : a.legal .reg = true) (hs : s.stack = v :: rest) :
    exec (.pop a) s = .next (({ s with stack := rest }.setReg (regOf a) v).advance 1) := by
  rw [exec_pop, afterOperands_legal (by simpa using h), hs]

/-- Settles O20: with the operand legal, `pop` goes by the stack: a fault on an empty one, else the shorter stack,
the register written with its old top, and the advance past one operand. -/
theorem popRule : Obligations.PopRule := by
  refine ⟨⟨fun wa rest => decode_cons_eq_ok_iff.2 rfl, fun a =>
    raisesOperandFaults_of_exec fun s => exec_pop s a⟩, fun a s ha => ⟨exec_pop_empty ha, fun v rest hs => ?_⟩⟩
  refine ⟨_, exec_pop_cons ha hs, ?written, ?others, rfl, rfl, ?frame⟩
  case written => rw [State.advance_getReg, State.setReg_getReg_same]
  case others => exact fun r hr => State.setReg_getReg_other _ v hr
  case frame =>
    exact State.onlyChanges_advance 1
      (State.onlyChanges_trans (s.onlyChanges_withStack rest) (State.onlyChanges_setReg _ (regOf a) v))

end Sys2Proof.Machine
end

section
/-! PROOFS. Control transfer (spec/44_control.md): `jmp` and `call` on a legal operand. -/

namespace Sys2Proof.Machine

variable {s : State} {a : Operand}

theorem exec_jmp_legal (h : a.legal .val = true) : exec (.jmp a) s = .next (s.setPc (s.valueOf a)) := by
  rw [exec_jmp, afterOperands_legal (by simpa using h)]

/-- Settles O23: on a legal operand `jmp` is a Program Counter load, and the fetch check holds of every state. -/
theorem jmpRule : Obligations.JmpRule := by
  refine ⟨⟨fun wa rest => decode_cons_eq_ok_iff.2 rfl, fun a =>
    raisesOperandFaults_of_exec fun s => exec_jmp s a⟩, fun a s ha => ?_⟩
  exact ⟨_, exec_jmp_legal ha, s.setPc_pc _, s.onlyChanges_setPc _, State.fetchIsChecked _⟩

theorem exec_call_legal (h : a.legal .val = true) :
    exec (.call a) s = .next ((s.push (s.pc + 2)).setPc (s.valueOf a)) := by
  rw [exec_call, afterOperands_legal (by simpa using h)]

/-- Settles O26: on a legal operand `call` is a push, the one change of its frame, then a Program Counter load. -/
theorem callRule : Obligations.CallRule := by
  refine ⟨⟨fun wa rest => decode_cons_eq_ok_iff.2 rfl, fun a =>
    raisesOperandFaults_of_exec fun s => exec_call s a⟩, fun a s ha => ?_⟩
  refine ⟨_, exec_call_legal ha, rfl, State.setPc_pc _ _, ?frame⟩
  case frame => exact State.onlyChanges_trans (s.onlyChanges_push _) (State.onlyChanges_setPc _ _)

end Sys2Proof.Machine
end

section
/-! PROOFS. Memory operations (spec/46_memory_ops.md): `rmem` and `wmem` on legal operands, by the bound of rule R190's
effective address. -/

namespace Sys2Proof.Machine

variable {s : State} {a b : Operand}

/-! ## `rmem` -/

theorem exec_rmem_outOfBounds (ha : a.legal .reg = true) (hb : b.legal .val = true)
    (haddr : 32768 ≤ (s.valueOf b).toNat) : exec (.rmem a b) s = raise ⟨.outOfBounds, s.valueOf b⟩ s := by
  rw [exec_rmem, afterOperands_legal (by simp [ha, hb]), if_neg (Nat.not_lt.2 haddr), raise]

theorem exec_rmem_inBounds (ha : a.legal .reg = true) (hb : b.legal .val = true)
    (haddr : (s.valueOf b).toNat < 32768) :
    exec (.rmem a b) s = .next ((s.setReg (regOf a) (s.mem.readWord (s.valueOf b).toNat)).advance 2) := by
  rw [exec_rmem, afterOperands_legal (by simp [ha, hb]), if_pos haddr]

/-- Settles O34: on legal operands `rmem` goes by the address: a fault from 32768 up, else a register write of the
whole cell and the advance past two operands. -/
theorem rmemRule : Obligations.RmemRule := by
  refine ⟨fun wa wb rest => decode_cons_eq_ok_iff.2 rfl, fun a b =>
    ⟨raisesOperandFaults_of_exec fun s => exec_rmem s a b, fun s ha hb => ?_⟩⟩
  exact ⟨exec_rmem_outOfBounds ha hb, fun haddr => completesWriting_of_exec (exec_rmem_inBounds ha hb haddr)⟩

/-! ## `wmem` -/

theorem exec_wmem_outOfBounds (ha : a.legal .val = true) (hb : b.legal .val = true)
    (haddr : 32768 ≤ (s.valueOf a).toNat) : exec (.wmem a b) s = raise ⟨.outOfBounds, s.valueOf a⟩ s := by
  rw [exec_wmem, afterOperands_legal (by simp [ha, hb]), if_neg (Nat.not_lt.2 haddr), raise]

theorem exec_wmem_inBounds (ha : a.legal .val = true) (hb : b.legal .val = true)
    (haddr : (s.valueOf a).toNat < 32768) :
    exec (.wmem a b) s =
      .next ({ s with mem := s.mem.writeWord (s.valueOf a).toNat (s.valueOf b) }.advance 2) := by
  rw [exec_wmem, afterOperands_legal (by simp [ha, hb]), if_pos haddr]

/-- Settles O35: on legal operands `wmem` goes by the address: a fault from 32768 up, else the write of one cell, the
one change of its frame, and the advance past two operands. -/
theorem wmemRule : Obligations.WmemRule := by
  refine ⟨⟨fun wa wb rest => decode_cons_eq_ok_iff.2 rfl, fun a b =>
    raisesOperandFaults_of_exec fun s => exec_wmem s a b⟩, fun a b s ha hb =>
    ⟨exec_wmem_outOfBounds ha hb, fun haddr ⟨hrising, _⟩ => ?_⟩⟩
  refine ⟨_, exec_wmem_inBounds ha hb haddr, ?written, ?others, State.advance_pc _ 2, ?frame⟩
  case written => rw [State.advance_mem, Memory.readWord_writeWord _ _ hrising, if_pos rfl]
  case others => exact fun q hlow hhigh => Memory.readByte_writeWord_other _ hrising hlow hhigh
  case frame => exact State.onlyChanges_advance 2 (s.onlyChanges_withMem _)

end Sys2Proof.Machine
end

section
/-! PROOFS. Encoding (spec/30_encoding.md rules R80 to R88): the decoder and the encoder undo each other. -/

namespace Sys2Proof.Machine

/-! ## Decoding an encoded instruction -/

/-- Rule R87, slot by slot. -/
theorem wf_iff {i : Instr} : i.wf = true ↔ ∀ p ∈ i.slots, p.2.legal p.1 = true :=
  List.all_eq_true

/-- A legal operand is the class of some word. -/
theorem exists_classify_eq {kind : SlotKind} {o : Operand} (h : o.legal kind = true) : ∃ raw, classify raw = o := by
  obtain ⟨raw, -, hclass⟩ := encodeSlot_legal h
  exact ⟨raw, hclass⟩

/-- Rules R85 and R88: a well-formed instruction's operands are classes of words, which the decoder classifies
again; what follows them is not looked at. -/
theorem decode_encode_append {i : Instr} (rest : List Word) (hwf : i.wf = true) :
    decode (encode i ++ rest) = .ok i := by
  rw [wf_iff] at hwf
  cases i with
  | halt | ret | noop => rfl
  | push a | pop a | jmp a | call a | out a | in_ a =>
    obtain ⟨wa, rfl⟩ := exists_classify_eq (hwf _ (List.mem_of_getElem? (i := 0) rfl))
    rw [encode, encodeSlot_classify]
    rfl
  | set a b | jt a b | jf a b | not a b | rmem a b | wmem a b =>
    obtain ⟨wa, rfl⟩ := exists_classify_eq (hwf _ (List.mem_of_getElem? (i := 0) rfl))
    obtain ⟨wb, rfl⟩ := exists_classify_eq (hwf _ (List.mem_of_getElem? (i := 1) rfl))
    rw [encode, encodeSlot_classify, encodeSlot_classify]
    rfl
  | eq a b c | gt a b c | add a b c | mult a b c | mod a b c | and a b c | or a b c =>
    obtain ⟨wa, rfl⟩ := exists_classify_eq (hwf _ (List.mem_of_getElem? (i := 0) rfl))
    obtain ⟨wb, rfl⟩ := exists_classify_eq (hwf _ (List.mem_of_getElem? (i := 1) rfl))
    obtain ⟨wc, rfl⟩ := exists_classify_eq (hwf _ (List.mem_of_getElem? (i := 2) rfl))
    rw [encode, encodeSlot_classify, encodeSlot_classify, encodeSlot_classify]
    rfl

/-- Settles O2: over words by the formats, over bytes because bytes regroup into the words they came from. -/
theorem decodeAfterEncode : Obligations.DecodeAfterEncode := by
  intro i rest hwf
  refine ⟨decode_encode_append rest hwf, ?_⟩
  rw [decodeBytes, wordsOfBytes_bytesOfWords, decode_encode_append rest hwf]

/-- Settles O1: the words are evaluated. -/
theorem specWordsDecode : Obligations.SpecWordsDecode := by
  unfold Obligations.SpecWordsDecode
  decide

/-! ## Encoding a decoded instruction -/

variable {op : Word} {ws : List Word} {i : Instr}

/-- Rule R84: a decoded instruction's operands are the slots after its opcode word, in order. -/
theorem decode_cons_operands (h : decode (op :: ws) = .ok i) :
    i.slots.map Prod.snd = (List.range i.slots.length).map (slotAt ws) := by
  rw [decode_cons_eq_ok_iff] at h
  unfold instrOf at h
  split at h <;> cases h <;> rfl

/-- Rule R80: an encoding is the opcode word and then the operands' words in order. -/
theorem encode_eq_cons (i : Instr) : ∃ op, encode i = op :: (i.slots.map Prod.snd).flatMap encodeSlot := by
  cases i with
  | halt | ret | noop => exact ⟨_, rfl⟩
  | push a | pop a | jmp a | call a | out a | in_ a
  | set a b | jt a b | jf a b | not a b | rmem a b | wmem a b
  | eq a b c | gt a b c | add a b c | mult a b c | mod a b c | and a b c | or a b c =>
    exact ⟨_, by simp only [encode, Instr.slots, List.map, List.flatMap_cons, List.flatMap_nil, List.append_nil]; rfl⟩

/-- Encoding the slots of a list of words gives back the words, as far as there are any. -/
theorem flatMap_encodeSlot_slotAt (ws : List Word) (n : Nat) :
    ((List.range n).map (slotAt ws)).flatMap encodeSlot = ws.take n := by
  induction n with
  | zero => rfl
  | succ n ih =>
    rw [List.range_succ, List.map_append, List.flatMap_append, ih, List.take_add_one]
    congr 1
    cases hw : ws[n]? with
    | none => simp [slotAt, hw, encodeSlot]
    | some raw => simp [slotAt, hw, encodeSlot_classify]

theorem slotAt_classified (ws : List Word) (k : Nat) : (slotAt ws k).classified = true := by
  unfold slotAt
  split
  · exact classify_classified _
  · rfl

/-- Settles O3: the opcode word of the encoding is the one decoded, and the operands are the slots after it. -/
theorem encodeAfterDecode : Obligations.EncodeAfterDecode := by
  intro ws i h
  cases ws with
  | nil => cases h
  | cons op ws =>
    have hslots := decode_cons_operands h
    constructor
    · obtain ⟨op', hencode⟩ := encode_eq_cons i
      have hhead := (opcodeWordSelectsInstruction.2.2 op ws i h).1
      rw [hencode, List.head?_cons, Option.some_inj] at hhead
      rw [hencode, hhead, hslots, flatMap_encodeSlot_slotAt, Instr.words, Nat.add_comm, List.take_succ_cons]
    · intro p hp
      have hmem : p.2 ∈ i.slots.map Prod.snd := List.mem_map_of_mem hp
      rw [hslots, List.mem_map] at hmem
      obtain ⟨k, -, hk⟩ := hmem
      exact hk ▸ slotAt_classified ws k

end Sys2Proof.Machine
end

section
/-! PROOFS. What `exec` does with the checks of spec/40_execution_cycle.md rule R104: an operand fault first, then the
instruction's own check, and the effect only where none fails. -/

namespace Sys2Proof.Machine

/-- Check 4 of rule R104 on resolved operands, the instruction's own. -/
def ownCheck (s : State) : Instr → Option Trap
  | .pop _ => if s.stack = [] then some ⟨.stackUnderflow, 0⟩ else none
  | .mod _ _ c => if (s.valueOf c).toNat = 0 then some ⟨.divideByZero, 0⟩ else none
  | .rmem _ b => if 32768 ≤ (s.valueOf b).toNat then some ⟨.outOfBounds, s.valueOf b⟩ else none
  | .wmem a _ => if 32768 ≤ (s.valueOf a).toNat then some ⟨.outOfBounds, s.valueOf a⟩ else none
  | _ => none

/-- What is left to an instruction with legal operands: its own fault, or its effect. -/
def OwnOutcome (i : Instr) (s t : State) : Prop :=
  (∃ f, ownCheck s i = some f ∧ t = s.takeFault f) ∨ (ownCheck s i = none ∧ Effect i s t)

variable {i : Instr} {s t : State}

/-- Every instruction is its operand faults, and after them its own check or its effect. -/
theorem exec_eq_afterOperands (i : Instr) (s : State) :
    ∃ t, exec i s = afterOperands s i.slots (.next t) ∧ OwnOutcome i s t := by
  cases i with
  | halt | noop => exact ⟨_, rfl, .inr ⟨rfl, rfl⟩⟩
  | ret =>
    cases hs : s.stack with
    | nil => exact ⟨s.stop, by rw [exec_ret, hs]; rfl, .inr ⟨rfl, .inl ⟨hs, rfl⟩⟩⟩
    | cons v rest => exact ⟨_, by rw [exec_ret, hs]; rfl, .inr ⟨rfl, .inr ⟨v, rest, hs, rfl⟩⟩⟩
  | set a b => exact ⟨_, exec_set s a b, .inr ⟨rfl, rfl⟩⟩
  | not a b => exact ⟨_, exec_not s a b, .inr ⟨rfl, rfl⟩⟩
  | push a => exact ⟨_, exec_push s a, .inr ⟨rfl, rfl⟩⟩
  | out a => exact ⟨_, exec_out s a, .inr ⟨rfl, rfl⟩⟩
  | jmp a => exact ⟨_, exec_jmp s a, .inr ⟨rfl, rfl⟩⟩
  | call a => exact ⟨_, exec_call s a, .inr ⟨rfl, rfl⟩⟩
  | jt a b => exact ⟨_, exec_jt s a b, .inr ⟨rfl, rfl⟩⟩
  | jf a b => exact ⟨_, exec_jf s a b, .inr ⟨rfl, rfl⟩⟩
  | eq a b c => exact ⟨_, exec_eq s a b c, .inr ⟨rfl, rfl⟩⟩
  | gt a b c => exact ⟨_, exec_gt s a b c, .inr ⟨rfl, rfl⟩⟩
  | add a b c => exact ⟨_, exec_add s a b c, .inr ⟨rfl, rfl⟩⟩
  | mult a b c => exact ⟨_, exec_mult s a b c, .inr ⟨rfl, rfl⟩⟩
  | and a b c => exact ⟨_, exec_and s a b c, .inr ⟨rfl, rfl⟩⟩
  | or a b c => exact ⟨_, exec_or s a b c, .inr ⟨rfl, rfl⟩⟩
  | pop a =>
    cases hs : s.stack with
    | nil => exact ⟨_, by rw [exec_pop, hs]; rfl, .inl ⟨_, if_pos hs, rfl⟩⟩
    | cons v rest => exact ⟨_, by rw [exec_pop, hs]; rfl, .inr ⟨by simp [ownCheck, hs], v, rest, hs, rfl⟩⟩
  | mod a b c =>
    by_cases hc : (s.valueOf c).toNat = 0
    · exact ⟨_, by rw [exec_mod, if_pos hc]; rfl, .inl ⟨_, if_pos hc, rfl⟩⟩
    · exact ⟨_, by rw [exec_mod, if_neg hc]; rfl, .inr ⟨if_neg hc, hc, rfl⟩⟩
  | rmem a b =>
    by_cases hb : (s.valueOf b).toNat < 32768
    · exact ⟨_, by rw [exec_rmem, if_pos hb]; rfl, .inr ⟨if_neg (Nat.not_le.2 hb), hb, rfl⟩⟩
    · exact ⟨_, by rw [exec_rmem, if_neg hb]; rfl, .inl ⟨_, if_pos (Nat.not_lt.1 hb), rfl⟩⟩
  | wmem a b =>
    by_cases ha : (s.valueOf a).toNat < 32768
    · exact ⟨_, by rw [exec_wmem, if_pos ha]; rfl, .inr ⟨if_neg (Nat.not_le.2 ha), ha, rfl⟩⟩
    · exact ⟨_, by rw [exec_wmem, if_neg ha]; rfl, .inl ⟨_, if_pos (Nat.not_lt.1 ha), rfl⟩⟩
  | in_ a =>
    rcases readInputByte_cases s with ⟨v, rest, hin, hread⟩ | ⟨e, rest, hin, hs, he, hread⟩ |
      ⟨c, rest, hin, hs, hread⟩ | ⟨hin, hs, hread⟩
    · exact ⟨_, by rw [exec_in, hread]; rfl, .inr ⟨rfl, .inl ⟨v, rest, hin, rfl⟩⟩⟩
    · exact ⟨_, by rw [exec_in, hread]; rfl, .inr ⟨rfl, .inr (.inl ⟨e, rest, hin, hs, he, rfl⟩)⟩⟩
    · exact ⟨_, by rw [exec_in, hread]; rfl, .inr ⟨rfl, .inr (.inr (.inl ⟨c, rest, hin, hs, rfl⟩))⟩⟩
    · exact ⟨_, by rw [exec_in, hread]; rfl, .inr ⟨rfl, .inr (.inr (.inr ⟨hin, hs, rfl⟩))⟩⟩

theorem exec_of_operandFault {f : Trap} (h : s.operandFault 1 i.slots = some f) :
    exec i s = .next (s.takeFault f) := by
  obtain ⟨t, hexec, -⟩ := exec_eq_afterOperands i s
  rw [hexec, afterOperands, h]

theorem exec_of_ownCheck {f : Trap} (hslots : s.operandFault 1 i.slots = none) (hown : ownCheck s i = some f) :
    exec i s = .next (s.takeFault f) := by
  obtain ⟨t, hexec, hout⟩ := exec_eq_afterOperands i s
  rcases hout with ⟨f', hf', ht⟩ | ⟨hnone, -⟩
  · rw [hown, Option.some_inj] at hf'
    rw [hexec, afterOperands, hslots, ht, hf']
  · rw [hown] at hnone
    cases hnone

theorem exec_of_noFault (hslots : s.operandFault 1 i.slots = none) (hown : ownCheck s i = none) :
    ∃ t, exec i s = .next t ∧ Effect i s t := by
  obtain ⟨t, hexec, hout⟩ := exec_eq_afterOperands i s
  rcases hout with ⟨f, hf, -⟩ | ⟨-, heffect⟩
  · rw [hown] at hf
    cases hf
  · exact ⟨t, by rw [hexec, afterOperands, hslots], heffect⟩

theorem exists_exec_eq_next (i : Instr) (s : State) : ∃ t, exec i s = .next t := by
  obtain ⟨t, hexec, -⟩ := exec_eq_afterOperands i s
  rw [hexec, afterOperands]
  split <;> exact ⟨_, rfl⟩

/-- Settles O43: every instruction begins with its operand faults. -/
theorem operandFaultsInOrder : Obligations.OperandFaultsInOrder :=
  fun _ s _ h => ⟨operandFault_mem s h, exec_of_operandFault h⟩

/-! ## The step of a running machine, and the one a terminal state does not take -/

theorem step_of_fetch (hrun : s.running = true) (h : fetch s = .ok i) : step s = exec i s := by
  rw [step, if_pos hrun, h]

theorem step_terminal (h : s.running = false) : step s = .fault .terminal := by
  rw [step, h]
  rfl

theorem exists_step_eq_next (hrun : s.running = true) : ∃ t, step s = .next t := by
  cases hf : fetch s with
  | ok i => rw [step_of_fetch hrun hf]; exact exists_exec_eq_next i s
  | error f => exact ⟨_, step_of_fetch_error hrun hf⟩

/-- Settles O45: every instruction answers a next state, so the running flag alone decides whether a step does. -/
theorem runningMachineSteps : Obligations.RunningMachineSteps := by
  refine ⟨exists_exec_eq_next, fun s => ⟨⟨exists_step_eq_next, fun ⟨_, h⟩ => (step_next_cases h).1⟩,
    ⟨step_terminal, fun h => ?_⟩⟩⟩
  by_contra hrun
  obtain ⟨t, ht⟩ := exists_step_eq_next (Bool.eq_true_of_not_eq_false hrun)
  rw [h] at ht
  cases ht

/-- Settles O42: a decoded fetch is the instruction that runs, and its words are those of the Address Space. -/
theorem stepRunsDecodedInstruction : Obligations.StepRunsDecodedInstruction := by
  refine fun s => ⟨fun i hrun h => step_of_fetch hrun (by rw [fetch, h]), fun k hk => ?_⟩
  rw [State.fetchWords, wordsFrom_getElem?]
  simp only [hk, true_and]

/-! ## What every effect leaves -/

/-- An effect, sorted by the parts of the state it changes. -/
inductive Shape (s t : State) : Instr → Prop
  /-- A register written, by an instruction that does nothing more. -/
  | compute {i : Instr} (a : Operand) (slots : List (SlotKind × Operand)) (v : Word)
      (hslots : i.slots = (.reg, a) :: slots) (ht : t = (s.setReg (regOf a) v).advance i.slots.length) : Shape s t i
  | goto {i : Instr} (v : Word) (ht : t = s.setPc v) : Shape s t i
  | stop {i : Instr} (v : Word) (hi : i = .halt ∨ i = .ret ∧ s.stack = []) (ht : t = s.stop.setPc v) : Shape s t i
  | push (a : Operand) (ht : t = (s.push (s.valueOf a)).advance 1) : Shape s t (.push a)
  | pop (a : Operand) (v : Word) (rest : List Word) (hs : s.stack = v :: rest)
      (ht : t = ({ s with stack := rest }.setReg (regOf a) v).advance 1) : Shape s t (.pop a)
  | call (a : Operand) (ht : t = (s.push (s.pc + 2)).setPc (s.valueOf a)) : Shape s t (.call a)
  | ret (v : Word) (rest : List Word) (hs : s.stack = v :: rest) (ht : t = { s with stack := rest }.setPc v) :
      Shape s t .ret
  | wmem (a b : Operand) (haddr : (s.valueOf a).toNat < 32768)
      (ht : t = { s with mem := s.mem.writeWord (s.valueOf a).toNat (s.valueOf b) }.advance 2) : Shape s t (.wmem a b)
  | out (a : Operand) (ht : t = (s.emit ((s.valueOf a).setWidth 8)).advance 1) : Shape s t (.out a)
  | inBuffered (a : Operand) (v : Byte) (rest : List Byte) (hin : s.inbuf = v :: rest)
      (ht : t = ({ s with inbuf := rest }.setReg (regOf a) (v.setWidth 16)).advance 1) : Shape s t (.in_ a)
  | inDelivered (a : Operand) (e : StreamItem) (rest : List StreamItem) (hin : s.inbuf = [])
      (hs : s.stream = e :: rest) (he : e.value ≠ Config.escapeByte)
      (ht : t = ({ s with stream := rest }.setReg (regOf a) (e.value.setWidth 16)).advance 1) : Shape s t (.in_ a)
  | inCommand (a : Operand) (c : DebugCommand) (rest : List StreamItem) (hin : s.inbuf = [])
      (hs : CommandAt s.stream c rest) (ht : t = { s with stream := rest }.runCommand c) : Shape s t (.in_ a)
  | inWaits (a : Operand) (hin : s.inbuf = []) (ht : t = s) : Shape s t (.in_ a)

theorem Effect.shape (h : Effect i s t) : Shape s t i := by
  cases i with
  | set a b | not a b | eq a b c | gt a b c | add a b c | mult a b c | and a b c | or a b c =>
    exact .compute a _ _ rfl h
  | mod a b c | rmem a b => exact .compute a _ _ rfl h.2
  | noop | jmp a => exact .goto _ h
  | jt a b | jf a b => exact .goto _ (h.trans (apply_ite s.setPc _ _ _).symm)
  | halt => exact .stop _ (.inl rfl) h
  | push a => exact .push a h
  | call a => exact .call a h
  | out a => exact .out a h
  | wmem a b => exact .wmem a b h.1 h.2
  | pop a =>
    obtain ⟨v, rest, hs, ht⟩ := h
    exact .pop a v rest hs ht
  | ret =>
    rcases h with ⟨hs, ht⟩ | ⟨v, rest, hs, ht⟩
    · exact .stop s.pc (.inr ⟨rfl, hs⟩) ht
    · exact .ret v rest hs ht
  | in_ a =>
    rcases h with ⟨v, rest, hin, ht⟩ | ⟨e, rest, hin, hs, he, ht⟩ | ⟨c, rest, hin, hs, ht⟩ | ⟨hin, -, ht⟩
    · exact .inBuffered a v rest hin ht
    · exact .inDelivered a e rest hin hs he ht
    · exact .inCommand a c rest hin hs ht
    · exact .inWaits a hin ht

/-- An effect records no fault. -/
theorem Shape.fault_eq (h : Shape s t i) : t.fault = s.fault := by
  cases h <;> simp [*]

/-- Rule R27: the running flag is cleared by `halt` and by `ret` on an empty stack alone. -/
theorem Shape.running_eq (h : Shape s t i) : t.running = s.running ∨ i = .halt ∨ i = .ret ∧ s.stack = [] := by
  cases h with
  | stop v hi ht => exact .inr hi
  | _ => left; simp [*]

/-- Rule R66: `wmem` alone writes memory. -/
theorem Shape.mem_eq (h : Shape s t i) :
    t.mem = s.mem ∨ ∃ a b, i = .wmem a b ∧ (s.valueOf a).toNat < 32768 ∧
      t.mem = s.mem.writeWord (s.valueOf a).toNat (s.valueOf b) := by
  cases h with
  | wmem a b haddr ht => exact .inr ⟨a, b, rfl, haddr, by rw [ht, State.advance_mem]⟩
  | _ => left; simp [*]

/-- An instruction takes a fault and does nothing else, or has its effect. -/
theorem exec_shape (h : exec i s = .next t) : (∃ f, t = s.takeFault f) ∨ Shape s t i :=
  (exec_cases h).imp_right fun h => h.2.shape

end Sys2Proof.Machine
end

section
/-! PROOFS. The checks of a step over raw memory words (spec/40_execution_cycle.md rule R104), and the faults they
give (spec/60_exceptions.md rule R220). -/

namespace Sys2Proof.Machine

variable {s : State} {i : Instr}

/-! ## One slot, read raw and resolved -/

/-- Check 3 on the word of a slot is the fault of the operand the word stands for. -/
theorem rawSlotFault_eq_slotFault {k : Nat} (kind : SlotKind) (hpc : s.pc.toNat < 32768) (h1 : 1 ≤ k) (h3 : k ≤ 3) :
    s.rawSlotFault kind (s.pc.toNat + k) = s.slotFault k kind (s.slot k) := by
  by_cases hin : s.pc.toNat + k < 32768
  · rw [slot_eq_classify h1 h3 hin, State.rawSlotFault, if_neg (Nat.not_le.2 hin)]
    generalize s.mem.readWord (s.pc.toNat + k) = raw
    rcases word_cases raw with hlit | ⟨r, hreg⟩ | hinv
    · rw [classify_lit hlit, if_neg (by omega)]
      cases kind with
      | reg => rw [if_pos ⟨rfl, hlit⟩, State.slotFault, lit_toNat hlit]
      | val => rfl
    · have hr := r.isLt
      rw [classify_reg r hreg, if_neg (by omega), if_neg (by omega)]
      cases kind <;> rfl
    · rw [classify_invalid hinv, if_pos hinv]
      cases kind <;> rfl
  · rw [slot_eq_absent hpc h1 h3 (Nat.not_lt.1 hin), State.rawSlotFault, if_pos (Nat.not_lt.1 hin), State.slotFault,
      pc_add_ofNat]

/-- The value of a slot's word is the value of the operand it stands for. -/
theorem rawOperand_eq_valueOf {k : Nat} (hpc : s.pc.toNat < 32768) (h1 : 1 ≤ k) (h3 : k ≤ 3)
    (hlegal : (s.slot k).legal .val = true) : s.rawOperand k = s.valueOf (s.slot k) := by
  by_cases hin : s.pc.toNat + k < 32768
  · rw [slot_eq_classify h1 h3 hin] at hlegal ⊢
    rw [State.rawOperand]
    generalize s.mem.readWord (s.pc.toNat + k) = raw at hlegal ⊢
    rcases word_cases raw with hlit | ⟨r, hreg⟩ | hinv
    · rw [classify_lit hlit, State.rawValue, if_pos hlit, State.valueOf, lit_toNat hlit]
    · rw [classify_reg r hreg, State.rawValue, if_neg (by omega), State.valueOf, hreg, Nat.add_sub_cancel_left,
        Fin.ofNat_val_eq_self]
    · rw [classify_invalid hinv] at hlegal
      cases hlegal
  · rw [slot_eq_absent hpc h1 h3 (Nat.not_lt.1 hin)] at hlegal
    cases hlegal

/-! ## All the slots of a fetched instruction -/

/-- The operands of a fetched instruction are its slots in memory. -/
theorem fetch_operands (h : decode s.fetchWords = .ok i) :
    i.slots.map Prod.snd = (List.range' 1 i.slots.length).map s.slot := by
  cases hws : s.fetchWords with
  | nil => rw [hws] at h; cases h
  | cons op ws =>
    rw [hws] at h
    rw [decode_cons_operands h, List.range'_eq_map_range, List.map_map]
    refine List.map_congr_left fun k _ => ?_
    rw [Function.comp_apply, State.slot, hws, Nat.add_sub_cancel_left, List.drop_one, List.tail_cons]

/-- Check 3 over raw words is the first operand fault. -/
theorem rawSlotsFault_eq_operandFault {k : Nat} {slots : List (SlotKind × Operand)} (hpc : s.pc.toNat < 32768)
    (h1 : 1 ≤ k) (hlen : k + slots.length ≤ 4) (h : slots.map Prod.snd = (List.range' k slots.length).map s.slot) :
    s.rawSlotsFault (s.pc.toNat + k) (slots.map Prod.fst) = s.operandFault k slots := by
  induction slots generalizing k with
  | nil => rfl
  | cons p rest ih =>
    obtain ⟨kind, o⟩ := p
    rw [List.length_cons] at hlen
    rw [List.length_cons, List.range'_succ, List.map_cons, List.map_cons, List.cons.injEq] at h
    obtain ⟨ho, hrest⟩ := h
    rw [List.map_cons, State.rawSlotsFault, State.operandFault, rawSlotFault_eq_slotFault kind hpc h1 (by omega), ← ho,
      ← ih (Nat.le_succ_of_le h1) (by omega) hrest]
    rfl

/-- Rule R84: a word of 22 or more has no format. -/
theorem kindsOf_eq_none {n : Nat} (h : 22 ≤ n) : kindsOf n = none := by
  unfold kindsOf
  split
  case h_23 => rfl
  all_goals omega

/-- Check 4 over raw words is the instruction's own check on its operands' values. -/
theorem ownFault_eq_ownCheck {n : Nat} (hpc : s.pc.toNat < 32768)
    (hop : instrOf n (s.slot 1) (s.slot 2) (s.slot 3) = some i) (hlegal : ∀ p ∈ i.slots, p.2.legal p.1 = true) :
    s.ownFault n = ownCheck s i := by
  have value : ∀ k, 1 ≤ k → k ≤ 3 → (.val, s.slot k) ∈ i.slots → s.rawOperand k = s.valueOf (s.slot k) :=
    fun k h1 h3 hmem => rawOperand_eq_valueOf hpc h1 h3 (hlegal _ hmem)
  unfold instrOf at hop
  split at hop <;> cases hop
  case h_12 => simp [State.ownFault, ownCheck, value 3 (by decide) (by decide) (by simp [Instr.slots])]
  case h_16 => simp [State.ownFault, ownCheck, value 2 (by decide) (by decide) (by simp [Instr.slots])]
  case h_17 => simp [State.ownFault, ownCheck, value 1 (by decide) (by decide) (by simp [Instr.slots])]
  all_goals simp [State.ownFault, ownCheck]

theorem instrOf_slots_length {n : Nat} {a b c : Operand} (h : instrOf n a b c = some i) :
    1 + i.slots.length ≤ 4 := by
  unfold instrOf at h
  split at h <;> cases h <;> simp [Instr.slots]

/-! ## The first check that fails -/

/-- Checks 1 and 2 are those of the fetch. -/
theorem failedCheck_of_fetch_error {f : Trap} (h : fetch s = .error f) : s.failedCheck = some f := by
  by_cases hpc : 32768 ≤ s.pc.toNat
  · rw [fetch_outOfBounds hpc, Except.error.injEq] at h
    rw [State.failedCheck, if_pos hpc, h]
  · by_cases hop : 22 ≤ (s.mem.readWord s.pc.toNat).toNat
    · rw [fetch_unknownOpcode (Nat.not_le.1 hpc) hop, Except.error.injEq] at h
      rw [State.failedCheck, if_neg hpc, kindsOf_eq_none hop, h]
    · obtain ⟨i, hi⟩ := exists_decode_cons_eq_ok_iff (ws := s.mem.wordsFrom (s.pc.toNat + 1) 3).2
        (Nat.le_of_lt_succ (Nat.not_le.1 hop))
      rw [fetch, fetchWords_eq_cons s (Nat.not_le.1 hpc), hi] at h
      cases h

theorem decode_of_fetch (h : fetch s = .ok i) : decode s.fetchWords = .ok i := by
  unfold fetch at h
  split at h
  · next j hj => cases h; exact hj
  · cases h
  · cases h

/-- Only an address of the Address Space gives an instruction. -/
theorem pc_lt_of_fetch (h : fetch s = .ok i) : s.pc.toNat < 32768 := by
  by_contra hpc
  rw [fetch_outOfBounds (Nat.not_lt.1 hpc)] at h
  cases h

/-- Checks 3 and 4 are the operand faults of the fetched instruction and then its own check. -/
theorem failedCheck_of_fetch_ok (h : fetch s = .ok i) :
    s.failedCheck = (s.operandFault 1 i.slots).or (ownCheck s i) := by
  have hpc := pc_lt_of_fetch h
  have hdecode := decode_of_fetch h
  have hslots := fetch_operands hdecode
  rw [fetchWords_eq_cons s hpc] at hdecode
  have hkinds := (opcodeWordSelectsInstruction.2.2 _ _ i hdecode).2
  have hmap := decode_cons_eq_ok_iff.1 hdecode
  have hraw := rawSlotsFault_eq_operandFault hpc (Nat.le_refl 1) (instrOf_slots_length hmap) hslots
  rw [State.failedCheck, if_neg (Nat.not_le.2 hpc), hkinds]
  simp only [hraw]
  cases hfault : s.operandFault 1 i.slots with
  | some f => rfl
  | none =>
    rw [Option.none_or]
    refine ownFault_eq_ownCheck hpc ?_ ((operandFault_none s).1 hfault)
    rw [State.slot, State.slot, State.slot, fetchWords_eq_cons s hpc]
    exact hmap

/-- The step of a running machine is its first failing check, or the effect of the fetched instruction. -/
theorem step_checks (hrun : s.running = true) :
    (∃ f, s.failedCheck = some f ∧ step s = .next (s.takeFault f)) ∨
      (s.failedCheck = none ∧ ∃ i t, fetch s = .ok i ∧ step s = .next t ∧ Effect i s t) := by
  cases hf : fetch s with
  | error f => exact .inl ⟨f, failedCheck_of_fetch_error hf, step_of_fetch_error hrun hf⟩
  | ok i =>
    have hcheck := failedCheck_of_fetch_ok hf
    rw [step_of_fetch hrun hf, hcheck]
    cases hslots : s.operandFault 1 i.slots with
    | some f => exact .inl ⟨f, rfl, exec_of_operandFault hslots⟩
    | none =>
      cases hown : ownCheck s i with
      | some f => exact .inl ⟨f, rfl, exec_of_ownCheck hslots hown⟩
      | none =>
        obtain ⟨t, hexec, heffect⟩ := exec_of_noFault hslots hown
        exact .inr ⟨rfl, i, t, rfl, hexec, heffect⟩

/-- Settles O44: the step's outcome is that of the checks, and an effect records no fault. -/
theorem stepChecksInOrder : Obligations.StepChecksInOrder := by
  intro s hrun
  rcases step_checks hrun with ⟨f, hcheck, hstep⟩ | ⟨hcheck, i, t, -, hstep, heffect⟩
  · rw [hcheck]
    exact ⟨fun g hg => by rw [hstep, Option.some_inj.1 hg], fun h => nomatch h⟩
  · rw [hcheck]
    exact ⟨fun g hg => (nomatch hg), fun _ => ⟨t, hstep, heffect.shape.fault_eq⟩⟩

end Sys2Proof.Machine
end

section
/-! PROOFS. What every step keeps, how a run ends, and what a fault leaves (spec/10_state.md rules R27 and R28,
spec/40_execution_cycle.md rule R106). -/

namespace Sys2Proof.Machine

variable {s t : State} {i : Instr} {f : Trap}

/-! ## A failed check has a value its kind allows (rule R220) -/

theorem rawSlotFault_sound {kind : SlotKind} {addr : Nat} (haddr : addr < 65536) (pc : Word)
    (h : s.rawSlotFault kind addr = some f) : FaultRecord.Sound ⟨f.kind, pc, f.value⟩ := by
  unfold State.rawSlotFault at h
  split at h
  · next hout =>
    cases h
    rw [FaultRecord.Sound, BitVec.toNat_ofNat, Nat.mod_eq_of_lt haddr]
    exact hout
  · split at h
    · next hinv => cases h; exact hinv
    · split at h
      · next hlit => cases h; exact hlit.2
      · cases h

theorem rawSlotsFault_sound {addr : Nat} {kinds : List SlotKind} (haddr : addr + kinds.length ≤ 65536) (pc : Word)
    (h : s.rawSlotsFault addr kinds = some f) : FaultRecord.Sound ⟨f.kind, pc, f.value⟩ := by
  induction kinds generalizing addr with
  | nil => cases h
  | cons kind rest ih =>
    rw [List.length_cons] at haddr
    unfold State.rawSlotsFault at h
    split at h
    · next g hg => cases h; exact rawSlotFault_sound (by omega) pc hg
    · exact ih (by omega) h

theorem ownFault_sound {op : Nat} (pc : Word) (h : s.ownFault op = some f) :
    FaultRecord.Sound ⟨f.kind, pc, f.value⟩ := by
  unfold State.ownFault at h
  split at h
  · cases h; rfl
  · split at h
    · cases h; rfl
    · split at h
      · next haddr => cases h; exact haddr.2
      · split at h
        · next haddr => cases h; exact haddr.2
        · cases h

/-- Rule R84: a format has at most three operands, and a word that has one is an opcode. -/
theorem kindsOf_length {n : Nat} {kinds : List SlotKind} (h : kindsOf n = some kinds) : kinds.length ≤ 3 := by
  unfold kindsOf at h
  split at h <;> cases h <;> decide

theorem le_of_kindsOf_eq_none {n : Nat} (h : kindsOf n = none) : 22 ≤ n := by
  by_contra hlt
  rw [Nat.not_le] at hlt
  interval_cases n <;> cases h

theorem failedCheck_sound (h : s.failedCheck = some f) (pc : Word) :
    FaultRecord.Sound ⟨f.kind, pc, f.value⟩ := by
  unfold State.failedCheck at h
  split at h
  · next hout => cases h; exact hout
  · next hin =>
    split at h
    · next hkinds => cases h; exact le_of_kindsOf_eq_none hkinds
    · next kinds hkinds =>
      have hlen := kindsOf_length hkinds
      split at h
      · next g hg => cases h; exact rawSlotsFault_sound (by omega) pc hg
      · exact ownFault_sound pc h

/-! ## The invariant -/

/-- A step's next state is that of a failed check, or of the fetched instruction's effect. -/
theorem step_next_checks (h : step s = .next t) :
    s.running = true ∧
      ((∃ f, s.failedCheck = some f ∧ t = s.takeFault f) ∨ ∃ i, fetch s = .ok i ∧ Shape s t i) := by
  have hrun := (step_next_cases h).1
  refine ⟨hrun, ?_⟩
  rcases step_checks hrun with ⟨f, hcheck, hstep⟩ | ⟨-, i, u, hfetch, hstep, heffect⟩ <;>
    rw [h, Host.Outcome.next.injEq] at hstep <;> subst hstep
  · exact .inl ⟨f, hcheck, rfl⟩
  · exact .inr ⟨i, hfetch, heffect.shape⟩

theorem Shape.mem_wf (h : Shape s t i) (hwf : s.mem.wf) : t.mem.wf := by
  rcases h.mem_eq with hmem | ⟨a, b, -, haddr, hmem⟩
  · rwa [hmem]
  · rw [hmem]
    exact Memory.writeWord_wf _ haddr hwf

theorem State.Inv.takeFault (hwf : s.mem.wf) (hsound : FaultRecord.Sound ⟨f.kind, s.pc, f.value⟩) :
    (s.takeFault f).Inv := by
  refine ⟨hwf, fun g hg => ?_⟩
  cases hg
  exact ⟨rfl, rfl, hsound⟩

theorem State.Inv.of_fault_eq_none (hwf : s.mem.wf) (h : s.fault = none) : s.Inv :=
  ⟨hwf, fun g hg => by rw [h] at hg; cases hg⟩

/-- A running machine that meets the invariant has recorded no fault. -/
theorem State.Inv.fault_eq_none (h : s.Inv) (hrun : s.running = true) : s.fault = none := by
  cases hf : s.fault with
  | none => rfl
  | some g =>
    have hstopped := (h.2 g hf).1
    rw [hrun] at hstopped
    cases hstopped

/-- Settles O46: a step either records the fault of a failed check, which is sound, or has an effect, which records
none and keeps memory canonical. -/
theorem stepKeepsInvariant : Obligations.StepKeepsInvariant := by
  intro s t hinv hstep
  obtain ⟨hrun, ⟨f, hcheck, rfl⟩ | ⟨i, -, hshape⟩⟩ := step_next_checks hstep
  · exact State.Inv.takeFault hinv.1 (failedCheck_sound hcheck s.pc)
  · exact State.Inv.of_fault_eq_none (hshape.mem_wf hinv.1) (hshape.fault_eq.trans (hinv.fault_eq_none hrun))

/-- Settles O13: the fields of the reset state, and no cell in its memory. -/
theorem resetState : Obligations.ResetState := by
  have hfill : wordOfBytes Config.fillByte Config.fillByte = 0 := by decide
  refine ⟨fun _ => hfill, fun r => ?_, rfl, rfl, rfl, rfl, rfl, rfl⟩
  rw [State.getReg, State.reset, Vector.getElem_replicate]

/-- Settles O14: the empty memory is canonical, and no fault is recorded. -/
theorem resetMeetsInvariant : Obligations.ResetMeetsInvariant :=
  State.Inv.of_fault_eq_none Memory.nil_wf rfl

/-! ## How a run ends -/

/-- Settles O47: where no check fails, the running flag is cleared by the two clean ends alone, which record no
fault. -/
theorem runEndsOnlyByHaltRetOrFault : Obligations.RunEndsOnlyByHaltRetOrFault := by
  intro s t hstep hstopped
  obtain ⟨hrun, hfault | ⟨i, hfetch, hshape⟩⟩ := step_next_checks hstep
  · exact .inr (.inr hfault)
  · have hrecord := hshape.fault_eq
    rcases hshape.running_eq with hsame | rfl | ⟨rfl, hempty⟩
    · rw [hstopped, hrun] at hsame
      cases hsame
    · exact .inl ⟨hfetch, hrecord⟩
    · exact .inr (.inl ⟨hfetch, hempty, hrecord⟩)

/-! ## What a fault leaves -/

theorem State.onlyChanges_takeFault (s : State) (f : Trap) : s.onlyChanges (s.takeFault f) [.running, .fault] := by
  intro p hp
  cases p with
  | running | fault => exact absurd (by decide) hp
  | mem => exact fun _ => rfl
  | regs => exact s.takeFault_getReg f
  | stack | inbuf | output | stream => rfl

/-- Settles O41: the fields of `takeFault`. -/
theorem faultIsRecorded : Obligations.FaultIsRecorded :=
  fun f s => ⟨s.takeFault f, rfl, rfl, rfl, rfl, s.onlyChanges_takeFault f⟩

/-- Settles O48: an effect leaves the fault record, so an instruction that changed it took a fault. -/
theorem faultHasNoPartialEffect : Obligations.FaultHasNoPartialEffect := by
  intro i s t hexec hchanged
  rcases exec_shape hexec with ⟨f, rfl⟩ | hshape
  · exact ⟨f, rfl, rfl, rfl, s.onlyChanges_takeFault f⟩
  · exact absurd hshape.fault_eq hchanged

end Sys2Proof.Machine
end

section
/-! PROOFS. Snapshots (spec/60_exceptions.md rule R237, spec/70_reset_and_hazards.md rule R262): no instruction reads
the output record, so a run goes on the same from any other record of output. -/

namespace Sys2Proof.Machine

/-- `r'` is `r`, but for an output record that began as `o` where that of `r` began as the output of `s`. -/
def ResumedFrom (s : State) (o : List Byte) (r r' : Host.Outcome State Fault Refusal) : Prop :=
  ∀ t, r = .next t → ∃ emitted, t.output = s.output ++ emitted ∧ r' = .next { t with output := o ++ emitted }

variable {s t : State} {i : Instr} (o : List Byte)

/-! ## The parts of a step that do not read the output -/

theorem valueOf_withOutput (s : State) (a : Operand) : { s with output := o }.valueOf a = s.valueOf a := by
  cases a <;> rfl

theorem operandFault_withOutput (s : State) (k : Nat) (slots : List (SlotKind × Operand)) :
    { s with output := o }.operandFault k slots = s.operandFault k slots := by
  induction slots generalizing k with
  | nil => rfl
  | cons p rest ih =>
    obtain ⟨kind, a⟩ := p
    have hslot : { s with output := o }.slotFault k kind a = s.slotFault k kind a := by
      cases kind <;> cases a <;> rfl
    rw [State.operandFault, State.operandFault, hslot, ih]

theorem runCommand_withOutput (s : State) (c : DebugCommand) :
    { s with output := o }.runCommand c = { s.runCommand c with output := o } := by
  cases c with
  | set r v =>
    by_cases h : SetInRange r v
    · simp only [State.runCommand, if_pos h]; rfl
    · simp only [State.runCommand, if_neg h]
  | dump | save _ | exportTo _ | malformed _ => rfl

/-- The Input Buffer is served first (rule R203). -/
theorem readInputByte_buffered {b : Byte} {rest : List Byte} (h : s.inbuf = b :: rest) :
    readInputByte s = .byte b { s with inbuf := rest } := by
  simp only [readInputByte, h]

/-! ## One instruction -/

theorem afterOperands_resumed {emitted : List Byte} {slots : List (SlotKind × Operand)}
    (h : t.output = s.output ++ emitted) :
    ResumedFrom s o (afterOperands s slots (.next t))
      (afterOperands { s with output := o } slots (.next { t with output := o ++ emitted })) := by
  intro u hu
  rw [afterOperands, operandFault_withOutput]
  rcases afterOperands_cases s hu with ⟨f, hf, rfl⟩ | ⟨hnone, heffect⟩
  · exact ⟨[], (List.append_nil _).symm, by rw [hf, List.append_nil]; rfl⟩
  · cases heffect
    exact ⟨emitted, h, by rw [hnone]⟩

/-- An instruction that emits nothing. -/
theorem exec_resumed_silent {o} {slots : List (SlotKind × Operand)}
    (h : exec i s = afterOperands s slots (.next t))
    (h' : exec i { s with output := o } = afterOperands { s with output := o } slots (.next { t with output := o }))
    (hout : t.output = s.output) : ResumedFrom s o (exec i s) (exec i { s with output := o }) := by
  have key := afterOperands_resumed (slots := slots) o (hout.trans (List.append_nil _).symm)
  rwa [List.append_nil, ← h, ← h'] at key

/-- `in`, whose answer comes from the Input Buffer and the stream alone. -/
theorem exec_in_resumed (s : State) (a : Operand) :
    ResumedFrom s o (exec (.in_ a) s) (exec (.in_ a) { s with output := o }) := by
  have h := exec_in s a
  have h' := exec_in { s with output := o } a
  rcases readInputByte_cases s with ⟨v, rest, hin, hread⟩ | ⟨e, rest, hin, hs, he, hread⟩ |
    ⟨c, rest, hin, hs, hread⟩ | ⟨hin, hs, hread⟩ <;> rw [hread] at h
  · rw [readInputByte_buffered (s := { s with output := o }) hin] at h'
    exact exec_resumed_silent h h' rfl
  · rw [readInputByte_item (s := { s with output := o }) hin hs he] at h'
    exact exec_resumed_silent h h' rfl
  · rw [readInputByte_command (s := { s with output := o }) hin hs] at h'
    refine exec_resumed_silent h (h'.trans ?_) (State.runCommand_output _ c)
    exact congrArg (fun u => afterOperands _ _ (.next u)) (runCommand_withOutput o { s with stream := rest } c)
  · rw [readInputByte_awaits (s := { s with output := o }) hin hs] at h'
    exact exec_resumed_silent h h' rfl

theorem exec_resumed (i : Instr) (s : State) : ResumedFrom s o (exec i s) (exec i { s with output := o }) := by
  cases i with
  | out a =>
    rw [exec_out, exec_out, valueOf_withOutput]
    exact afterOperands_resumed o rfl
  | halt => exact exec_resumed_silent (slots := []) (exec_halt s) (exec_halt _) rfl
  | noop => exact exec_resumed_silent (slots := []) (exec_noop s) (exec_noop _) rfl
  | set a b => exact exec_resumed_silent (exec_set s a b) (exec_set _ a b) rfl
  | push a => exact exec_resumed_silent (exec_push s a) (exec_push _ a) rfl
  | jmp a => exact exec_resumed_silent (exec_jmp s a) (exec_jmp _ a) rfl
  | call a => exact exec_resumed_silent (exec_call s a) (exec_call _ a) rfl
  | not a b => exact exec_resumed_silent (exec_not s a b) (exec_not _ a b) rfl
  | eq a b c => exact exec_resumed_silent (exec_eq s a b c) (exec_eq _ a b c) rfl
  | gt a b c => exact exec_resumed_silent (exec_gt s a b c) (exec_gt _ a b c) rfl
  | add a b c => exact exec_resumed_silent (exec_add s a b c) (exec_add _ a b c) rfl
  | mult a b c => exact exec_resumed_silent (exec_mult s a b c) (exec_mult _ a b c) rfl
  | and a b c => exact exec_resumed_silent (exec_and s a b c) (exec_and _ a b c) rfl
  | or a b c => exact exec_resumed_silent (exec_or s a b c) (exec_or _ a b c) rfl
  | jt a b =>
    refine exec_resumed_silent (exec_jt s a b) ?_ (by split <;> rfl)
    rw [exec_jt, valueOf_withOutput, valueOf_withOutput]
    split <;> rfl
  | jf a b =>
    refine exec_resumed_silent (exec_jf s a b) ?_ (by split <;> rfl)
    rw [exec_jf, valueOf_withOutput, valueOf_withOutput]
    split <;> rfl
  | mod a b c =>
    by_cases hc : (s.valueOf c).toNat = 0
    · exact exec_resumed_silent ((exec_mod s a b c).trans (congrArg (afterOperands s _) (if_pos hc)))
        ((exec_mod _ a b c).trans (congrArg (afterOperands _ _) (if_pos hc))) rfl
    · exact exec_resumed_silent ((exec_mod s a b c).trans (congrArg (afterOperands s _) (if_neg hc)))
        ((exec_mod _ a b c).trans (congrArg (afterOperands _ _) (if_neg hc))) rfl
  | rmem a b =>
    by_cases hb : (s.valueOf b).toNat < 32768
    · exact exec_resumed_silent ((exec_rmem s a b).trans (congrArg (afterOperands s _) (if_pos hb)))
        ((exec_rmem _ a b).trans (congrArg (afterOperands _ _) (if_pos hb))) rfl
    · exact exec_resumed_silent ((exec_rmem s a b).trans (congrArg (afterOperands s _) (if_neg hb)))
        ((exec_rmem _ a b).trans (congrArg (afterOperands _ _) (if_neg hb))) rfl
  | wmem a b =>
    by_cases ha : (s.valueOf a).toNat < 32768
    · exact exec_resumed_silent ((exec_wmem s a b).trans (congrArg (afterOperands s _) (if_pos ha)))
        ((exec_wmem _ a b).trans (congrArg (afterOperands _ _) (if_pos ha))) rfl
    · exact exec_resumed_silent ((exec_wmem s a b).trans (congrArg (afterOperands s _) (if_neg ha)))
        ((exec_wmem _ a b).trans (congrArg (afterOperands _ _) (if_neg ha))) rfl
  | pop a =>
    obtain ⟨mem, x, pc, stack, running, fault, inbuf, output, stream⟩ := s
    cases stack with
    | nil | cons v rest => exact exec_resumed_silent (exec_pop _ a) (exec_pop _ a) rfl
  | ret =>
    obtain ⟨mem, x, pc, stack, running, fault, inbuf, output, stream⟩ := s
    cases stack with
    | nil | cons v rest => exact exec_resumed_silent (slots := []) (exec_ret _) (exec_ret _) rfl
  | in_ a => exact exec_in_resumed o s a

/-! ## One step, and any number of them -/

theorem step_resumed (s : State) : ResumedFrom s o (step s) (step { s with output := o }) := by
  intro t h
  rcases step_next_cases h with ⟨hrun, ⟨i, hi, hexec⟩ | ⟨f, hf, rfl⟩⟩
  · obtain ⟨emitted, hout, hexec'⟩ := exec_resumed o i s t hexec
    exact ⟨emitted, hout, by rw [step_of_fetch (s := { s with output := o }) hrun hi, hexec']⟩
  · refine ⟨[], (List.append_nil _).symm, ?_⟩
    rw [step_of_fetch_error (s := { s with output := o }) hrun hf, List.append_nil]
    rfl

/-- From any other record of output, a run emits the same bytes and reaches the same state in all else. -/
theorem runSteps_resumed (k : Nat) (s : State) :
    ResumedFrom s o (runSteps k s) (runSteps k { s with output := o }) := by
  induction k generalizing s o with
  | zero =>
    intro t h
    cases h
    exact ⟨[], (List.append_nil _).symm, by rw [List.append_nil]; rfl⟩
  | succ k ih =>
    intro t h
    rw [runSteps_succ] at h
    split at h
    · next u hu =>
      obtain ⟨first, hfirst, hstep⟩ := step_resumed o s u hu
      obtain ⟨rest, hrest, hrun⟩ := ih (o ++ first) u t h
      refine ⟨first ++ rest, by rw [hrest, hfirst, List.append_assoc], ?_⟩
      rw [runSteps_succ, hstep, ← List.append_assoc]
      exact hrun
    · cases h
    · cases h

/-- Settles O60: a loaded snapshot is the state it was taken of with no output, once the stream is the same and no
fault was recorded. -/
theorem snapshotResumes : Obligations.SnapshotResumes := by
  intro s u t k hfault hload hrun
  have hu : { u with stream := s.stream } = { s with output := [] } := by
    cases hload
    obtain ⟨mem, x, pc, stack, running, fault, inbuf, output, stream⟩ := s
    cases hfault
    rfl
  rw [hu]
  exact runSteps_resumed [] k s t hrun

/-- Settles O59: the fields of a snapshot and of a load. -/
theorem snapshotHoldsMachineState : Obligations.SnapshotHoldsMachineState :=
  ⟨fun _ => ⟨rfl, rfl, rfl, rfl, rfl, rfl, rfl⟩, fun _ => ⟨_, rfl, rfl, rfl⟩, fun _ _ => rfl⟩

end Sys2Proof.Machine
end

section
/-! PROOFS. Memory as data: canonical form, the raw image and the load of an image (spec/20_memory.md rules R51 and
R65, spec/70_reset_and_hazards.md rules R261 and R263). -/

namespace Sys2Proof.Machine

variable {m n : Memory}

/-! ## Canonical form -/

theorem Memory.readByte_of_mem {a : Nat} {v : Byte} (h : m.Pairwise fun c d => c.1 < d.1) (hmem : (a, v) ∈ m) :
    m.readByte a = v := by
  induction m with
  | nil => cases hmem
  | cons c m ih =>
    obtain ⟨b, w⟩ := c
    obtain ⟨hlt, htail⟩ := List.pairwise_cons.1 h
    rw [Memory.readByte_cons]
    rcases List.mem_cons.1 hmem with heq | hmem
    · cases heq
      exact if_pos rfl
    · rw [if_neg (Nat.ne_of_lt (hlt (a, v) hmem)), ih htail hmem]

/-- A byte that does not read as unlisted is listed. -/
theorem Memory.mem_of_readByte {a : Nat} (h : m.readByte a ≠ Config.fillByte) : (a, m.readByte a) ∈ m := by
  induction m with
  | nil => exact absurd rfl h
  | cons c m ih =>
    obtain ⟨b, w⟩ := c
    rw [Memory.readByte_cons] at h ⊢
    split at h
    · next hb => rw [if_pos hb, hb]; exact List.mem_cons_self
    · next hb => rw [if_neg hb]; exact List.mem_cons_of_mem _ (ih h)

/-- A canonical memory lists exactly the bytes that do not read as unlisted. -/
theorem Memory.mem_iff_readByte {a : Nat} {v : Byte} (hwf : m.wf) :
    (a, v) ∈ m ↔ m.readByte a = v ∧ v ≠ Config.fillByte := by
  constructor
  · exact fun hmem => ⟨Memory.readByte_of_mem hwf.1 hmem, (hwf.2 _ hmem).2⟩
  · rintro ⟨rfl, hv⟩
    exact Memory.mem_of_readByte hv

/-- Settles O11: reading alike is listing the same cells, and in rising order there is one way to list them. -/
theorem sameBytesSameMemory : Obligations.SameBytesSameMemory := by
  intro m n hm hn h
  have hirrefl : Std.Irrefl fun c d : Host.Cell => c.1 < d.1 := ⟨fun c => Nat.lt_irrefl c.1⟩
  have hantisymm : Std.Antisymm fun c d : Host.Cell => c.1 < d.1 :=
    ⟨fun c d hcd hdc => absurd hcd (Nat.lt_asymm hdc)⟩
  refine hm.1.eq_of_mem_iff hn.1 fun ⟨a, v⟩ => ?_
  rw [Memory.mem_iff_readByte hm, Memory.mem_iff_readByte hn, h a]

/-! ## The raw image -/

theorem Memory.image_length (m : Memory) : m.image.length = 65536 := by
  rw [Memory.image, List.length_map, List.length_range, Config.memBytes]

theorem Memory.image_getElem? {a : Nat} (h : a < 65536) : m.image[a]? = some (m.readByte a) := by
  rw [Memory.image, List.getElem?_map, List.getElem?_range (show a < Config.memBytes from h), Option.map_some]

/-- A canonical memory lists nothing beyond the Address Space. -/
theorem Memory.readByte_of_ge {a : Nat} (hwf : m.wf) (h : 65536 ≤ a) : m.readByte a = Config.fillByte := by
  by_contra hv
  have hlt : a < 65536 := (hwf.2 _ (Memory.mem_of_readByte hv)).1
  omega

/-- The memory of a byte image, byte by byte. -/
theorem Memory.readByte_ofBytes_zero (bs : List Byte) (q : Nat) :
    (Memory.ofBytes 0 bs).readByte q = bs[q]?.getD Config.fillByte := by
  have h := Memory.readByte_ofBytes 0 bs q
  rwa [Nat.zero_add] at h

/-- Rule R65: a canonical memory and the memory of its raw image read alike. -/
theorem Memory.ofBytes_image (hwf : m.wf) : Memory.ofBytes 0 m.image = m := by
  refine sameBytesSameMemory _ _ (Memory.ofBytes_wf (by rw [Memory.image_length]; decide)) hwf fun a => ?_
  rw [Memory.readByte_ofBytes_zero]
  by_cases ha : a < 65536
  · rw [Memory.image_getElem? ha, Option.getD_some]
  · rw [List.getElem?_eq_none (by rw [Memory.image_length]; omega), Option.getD_none,
      Memory.readByte_of_ge hwf (Nat.not_lt.1 ha)]

/-- Settles O12: the image is the bytes in order, and a word's bytes are its remainder and quotient by 256. -/
theorem rawImageReloads : Obligations.RawImageReloads := by
  intro m hwf
  refine ⟨m.image_length, fun n hn => ?_, Memory.ofBytes_image hwf⟩
  have hlow := (m.readByte (2 * n)).isLt
  rw [Memory.image_getElem? (by omega), Memory.image_getElem? (by omega), Memory.readWord_toNat, Option.map_some,
    Option.map_some]
  constructor <;> congr 1 <;> omega

/-! ## Loading an image -/

theorem loadImage_of_le {image : List Byte} (script : Option (List Byte)) (h : image.length ≤ 65536) :
    loadImage image script =
      .next { State.reset with mem := Memory.ofBytes 0 image, inbuf := script.getD [] } :=
  if_pos h

theorem loadImage_of_gt {image : List Byte} (script : Option (List Byte)) (h : 65536 < image.length) :
    loadImage image script = .refused .imageTooLong :=
  if_neg (Nat.not_le.2 h)

theorem State.onlyChanges_withMemInbuf (s : State) (m : Memory) (l : List Byte) :
    s.onlyChanges { s with mem := m, inbuf := l } [.mem, .inbuf] := by
  intro p hp
  cases p with
  | mem | inbuf => exact absurd (by decide) hp
  | regs => exact fun _ => rfl
  | stack | running | fault | output | stream => rfl

/-- Settles O15: the loaded memory reads as the image, padded, and is canonical because the image fits. -/
theorem loadImagePlacesWords : Obligations.LoadImagePlacesWords := by
  intro image script
  refine ⟨fun hle => ⟨_, loadImage_of_le script hle, fun n _ => ?_, rfl, rfl, State.onlyChanges_withMemInbuf _ _ _, ?_⟩,
    loadImage_of_gt script⟩
  · simp only [Memory.readWord_toNat, Memory.readByte_ofBytes_zero, List.getD_eq_getElem?_getD]
    rw [Nat.mul_comm, Nat.add_comm, Config.fillByte]
  · exact State.Inv.of_fault_eq_none (Memory.ofBytes_wf (by rw [Nat.zero_add]; exact hle)) rfl

end Sys2Proof.Machine
end

section
/-! PROOFS. The remaining instruction rules: system, compare, arithmetic and logic, conditional jumps and `ret`
(spec/41_system.md, 43_compare.md, 44_control.md and 45_arith_logic.md). -/

namespace Sys2Proof.Machine

variable {s : State} {a b c : Operand}

/-! ## System -/

/-- Clearing the running flag is a change of that flag alone. -/
theorem State.onlyChanges_stop (s : State) : s.onlyChanges s.stop [.running] := by
  intro p hp
  cases p with
  | running => exact absurd (List.mem_singleton.2 rfl) hp
  | mem => exact fun _ => rfl
  | regs => exact s.stop_getReg
  | stack | fault | inbuf | output | stream => rfl

/-- Settles O17: `halt` clears the running flag and loads the Program Counter. -/
theorem haltRule : Obligations.HaltRule :=
  ⟨fun _ => decode_cons_eq_ok_iff.2 rfl, fun s =>
    ⟨_, exec_halt s, rfl, State.onlyChanges_advance 0 s.onlyChanges_stop, fun hfault => ⟨rfl, hfault⟩⟩⟩

/-! ## The words that are computed -/

theorem eqWord_toNat (y z : Word) : (eqWord y z).toNat = if y.toNat = z.toNat then 1 else 0 := by
  by_cases h : y = z
  · simp [eqWord, ofBool, h]
  · simp [eqWord, ofBool, h, BitVec.toNat_inj]

theorem gtWord_toNat (y z : Word) : (gtWord y z).toNat = if y.toNat > z.toNat then 1 else 0 := by
  by_cases h : z.toNat < y.toNat <;> simp [gtWord, ofBool, h]

/-- A number below 65536 is the value of its word. -/
theorem ofNat_toNat_of_lt {n : Nat} (h : n < 65536) : (BitVec.ofNat 16 n).toNat = n := by
  rw [BitVec.toNat_ofNat, Nat.mod_eq_of_lt h]

theorem addWord_toNat (y z : Word) : (addWord y z).toNat = (y.toNat + z.toNat) % 32768 :=
  ofNat_toNat_of_lt (Nat.lt_trans (Nat.mod_lt _ (by decide)) (by decide))

theorem multWord_toNat (y z : Word) : (multWord y z).toNat = (y.toNat * z.toNat) % 32768 :=
  ofNat_toNat_of_lt (Nat.lt_trans (Nat.mod_lt _ (by decide)) (by decide))

theorem modWord_toNat (y z : Word) : (modWord y z).toNat = y.toNat % z.toNat :=
  ofNat_toNat_of_lt (Nat.lt_of_le_of_lt (Nat.mod_le _ _) y.isLt)

theorem notWord_toNat (y : Word) : (notWord y).toNat = 32767 - y.toNat % 32768 := by
  have hy := y.isLt
  have hmask : (~~~y &&& 0x7FFF#16).toNat = (65535 - y.toNat) % 2 ^ 15 := by
    rw [BitVec.toNat_and, BitVec.toNat_not]
    exact Nat.and_two_pow_sub_one_eq_mod _ 15
  rw [notWord, hmask]
  omega

/-! ## Instructions of format RVV that compute one word -/

/-- An instruction that is `computeRVV` of a word function meets the rule of that function's values. -/
theorem ruleRVV_of_exec {op : Nat} {mk : Operand → Operand → Operand → Instr} {f : Nat → Nat → Nat}
    {word : Word → Word → Word}
    (hdecode : ∀ wa wb wc rest, decode (BitVec.ofNat 16 op :: wa :: wb :: wc :: rest) =
      .ok (mk (classify wa) (classify wb) (classify wc)))
    (hexec : ∀ s a b c, exec (mk a b c) s = computeRVV word a b c s)
    (hword : ∀ y z, (word y z).toNat = f y.toNat z.toNat) : RuleRVV op mk f := by
  refine ⟨hdecode, fun a b c => ⟨raisesOperandFaults_of_exec fun s => (hexec s a b c).trans (exec_compute s a b c word),
    fun s ha hb hc => ?_⟩⟩
  have hrun : exec (mk a b c) s = .next ((s.setReg (regOf a) (word (s.valueOf b) (s.valueOf c))).advance 3) := by
    rw [hexec, exec_compute, afterOperands_legal (by simp [ha, hb, hc])]
  rw [← hword]
  exact completesWriting_of_exec hrun

/-- Settles O21: `eq` computes the word `eqWord`. -/
theorem eqRule : Obligations.EqRule :=
  ruleRVV_of_exec (fun _ _ _ _ => decode_cons_eq_ok_iff.2 rfl) (fun _ _ _ _ => rfl) eqWord_toNat

/-- Settles O22: `gt` computes the word `gtWord`. -/
theorem gtRule : Obligations.GtRule :=
  ruleRVV_of_exec (fun _ _ _ _ => decode_cons_eq_ok_iff.2 rfl) (fun _ _ _ _ => rfl) gtWord_toNat

/-- Settles O28: `add` computes the word `addWord`. -/
theorem addRule : Obligations.AddRule :=
  ruleRVV_of_exec (fun _ _ _ _ => decode_cons_eq_ok_iff.2 rfl) (fun _ _ _ _ => rfl) addWord_toNat

/-- Settles O29: `mult` computes the word `multWord`. -/
theorem multRule : Obligations.MultRule :=
  ruleRVV_of_exec (fun _ _ _ _ => decode_cons_eq_ok_iff.2 rfl) (fun _ _ _ _ => rfl) multWord_toNat

/-- Settles O31: the value of the whole word, and then of each bit of it. -/
theorem andRule : Obligations.AndRule := by
  have hrule : RuleRVV 12 .and (fun y z => y &&& z) :=
    ruleRVV_of_exec (fun _ _ _ _ => decode_cons_eq_ok_iff.2 rfl) (fun _ _ _ _ => rfl) BitVec.toNat_and
  refine ⟨hrule, fun a b c s ha hb hc => ?_⟩
  obtain ⟨t, hexec, hvalue, -⟩ := (hrule.2 a b c).2 s ha hb hc
  have hword : t.getReg (regOf a) = s.valueOf b &&& s.valueOf c :=
    BitVec.eq_of_toNat_eq (hvalue.trans (BitVec.toNat_and _ _).symm)
  exact ⟨t, hexec, fun i _ => by rw [hword, BitVec.getLsbD_and]⟩

/-- Settles O32: the value of the whole word, and then of each bit of it. -/
theorem orRule : Obligations.OrRule := by
  have hrule : RuleRVV 13 .or (fun y z => y ||| z) :=
    ruleRVV_of_exec (fun _ _ _ _ => decode_cons_eq_ok_iff.2 rfl) (fun _ _ _ _ => rfl) BitVec.toNat_or
  refine ⟨hrule, fun a b c s ha hb hc => ?_⟩
  obtain ⟨t, hexec, hvalue, -⟩ := (hrule.2 a b c).2 s ha hb hc
  have hword : t.getReg (regOf a) = s.valueOf b ||| s.valueOf c :=
    BitVec.eq_of_toNat_eq (hvalue.trans (BitVec.toNat_or _ _).symm)
  exact ⟨t, hexec, fun i _ => by rw [hword, BitVec.getLsbD_or]⟩

/-! ## `mod` and `not` -/

theorem exec_mod_zero (ha : a.legal .reg = true) (hb : b.legal .val = true) (hc : c.legal .val = true)
    (hzero : (s.valueOf c).toNat = 0) : exec (.mod a b c) s = raise ⟨.divideByZero, 0⟩ s := by
  rw [exec_mod, afterOperands_legal (by simp [ha, hb, hc]), if_pos hzero, raise]

theorem exec_mod_nonzero (ha : a.legal .reg = true) (hb : b.legal .val = true) (hc : c.legal .val = true)
    (hzero : (s.valueOf c).toNat ≠ 0) :
    exec (.mod a b c) s = .next ((s.setReg (regOf a) (modWord (s.valueOf b) (s.valueOf c))).advance 3) := by
  rw [exec_mod, afterOperands_legal (by simp [ha, hb, hc]), if_neg hzero]

/-- Settles O30: on legal operands `mod` goes by the divisor: a fault for 0, else the register write of the
remainder. -/
theorem modRule : Obligations.ModRule := by
  refine ⟨fun wa wb wc rest => decode_cons_eq_ok_iff.2 rfl, fun a b c =>
    ⟨raisesOperandFaults_of_exec fun s => exec_mod s a b c, fun s ha hb hc =>
      ⟨exec_mod_zero ha hb hc, fun hzero => ?_⟩⟩⟩
  rw [← modWord_toNat]
  exact completesWriting_of_exec (exec_mod_nonzero ha hb hc hzero)

theorem exec_not_legal (ha : a.legal .reg = true) (hb : b.legal .val = true) :
    exec (.not a b) s = .next ((s.setReg (regOf a) (notWord (s.valueOf b))).advance 2) := by
  rw [exec_not, afterOperands_legal (by simp [ha, hb])]

theorem notWord_getLsbD_of_lt (y : Word) {i : Nat} (h : i < 15) : (notWord y).getLsbD i = !y.getLsbD i := by
  have hmask : (0x7FFF#16).getLsbD i = true := by interval_cases i <;> rfl
  rw [notWord, BitVec.getLsbD_and, BitVec.getLsbD_not, hmask, Bool.and_true, decide_eq_true (by omega), Bool.true_and]

/-- Settles O33: the value of the written word, and then its bits. -/
theorem notRule : Obligations.NotRule := by
  refine ⟨⟨fun wa wb rest => decode_cons_eq_ok_iff.2 rfl, fun a b =>
    ⟨raisesOperandFaults_of_exec fun s => exec_not s a b, fun s ha hb => ?_⟩⟩, fun a b s ha hb => ?_⟩
  · have hwrite := completesWriting_of_exec (exec_not_legal (s := s) ha hb)
    rwa [notWord_toNat] at hwrite
  · refine ⟨_, exec_not_legal ha hb, ?_⟩
    rw [State.advance_getReg, State.setReg_getReg_same]
    exact ⟨fun i hi => notWord_getLsbD_of_lt _ hi, by rw [notWord, BitVec.getLsbD_and]; exact Bool.and_false _⟩

/-! ## Conditional jumps and `ret` -/

theorem isZero_iff {v : Word} : isZero v = true ↔ v.toNat = 0 := by
  rw [isZero, beq_iff_eq]

/-- `jt` on legal operands is a Program Counter load, of the target or of the next instruction's address. -/
theorem exec_jt_legal (ha : a.legal .val = true) (hb : b.legal .val = true) :
    exec (.jt a b) s = .next (s.setPc (if (s.valueOf a).toNat = 0 then s.pc + 3 else s.valueOf b)) := by
  rw [exec_jt, afterOperands_legal (by simp [ha, hb]), apply_ite s.setPc]
  simp only [isZero_iff]
  rfl

theorem exec_jf_legal (ha : a.legal .val = true) (hb : b.legal .val = true) :
    exec (.jf a b) s = .next (s.setPc (if (s.valueOf a).toNat = 0 then s.valueOf b else s.pc + 3)) := by
  rw [exec_jf, afterOperands_legal (by simp [ha, hb]), apply_ite s.setPc]
  simp only [isZero_iff]
  rfl

/-- Settles O24: on legal operands `jt` is a Program Counter load that goes by the condition. -/
theorem jtRule : Obligations.JtRule := by
  refine ⟨⟨fun wa wb rest => decode_cons_eq_ok_iff.2 rfl, fun a b =>
    raisesOperandFaults_of_exec fun s => exec_jt s a b⟩, fun a b s ha hb => ?_⟩
  exact ⟨_, exec_jt_legal ha hb, fun h => if_neg h, fun h => if_pos h, s.onlyChanges_setPc _⟩

/-- Settles O25: on legal operands `jf` is a Program Counter load that goes by the condition. -/
theorem jfRule : Obligations.JfRule := by
  refine ⟨⟨fun wa wb rest => decode_cons_eq_ok_iff.2 rfl, fun a b =>
    raisesOperandFaults_of_exec fun s => exec_jf s a b⟩, fun a b s ha hb => ?_⟩
  exact ⟨_, exec_jf_legal ha hb, fun h => if_pos h, fun h => if_neg h, s.onlyChanges_setPc _⟩

theorem exec_ret_empty (h : s.stack = []) : exec .ret s = .next s.stop := by
  rw [exec_ret, h]

theorem exec_ret_cons {v : Word} {rest : List Word} (h : s.stack = v :: rest) :
    exec .ret s = .next ({ s with stack := rest }.setPc v) := by
  rw [exec_ret, h]

/-- Settles O27: `ret` goes by the stack: its top into the Program Counter, or the running flag cleared. -/
theorem retRule : Obligations.RetRule := by
  refine ⟨fun rest => decode_cons_eq_ok_iff.2 rfl, fun s => ⟨fun v rest hs => ?_, fun hs => ?_⟩⟩
  · exact ⟨_, exec_ret_cons hs, rfl, rfl,
      State.onlyChanges_trans (s.onlyChanges_withStack rest) (State.onlyChanges_setPc _ v), State.fetchIsChecked _⟩
  · exact ⟨_, exec_ret_empty hs, rfl, s.onlyChanges_stop, fun hfault => ⟨rfl, hfault⟩⟩

end Sys2Proof.Machine
end

section
/-! PROOFS. Input and output, and the debug commands (spec/47_io.md, spec/60_exceptions.md rules R235, R236 and
R240). -/

namespace Sys2Proof.Machine

variable {s : State} {a : Operand}

/-! ## Frames -/

theorem State.onlyChanges_emit (s : State) (b : Byte) : s.onlyChanges (s.emit b) [.output] := by
  intro p hp
  cases p with
  | output => exact absurd (List.mem_singleton.2 rfl) hp
  | mem => exact fun _ => rfl
  | regs => exact s.emit_getReg b
  | stack | running | fault | inbuf | stream => rfl

theorem State.onlyChanges_withInbuf (s : State) (l : List Byte) : s.onlyChanges { s with inbuf := l } [.inbuf] := by
  intro p hp
  cases p with
  | inbuf => exact absurd (List.mem_singleton.2 rfl) hp
  | mem => exact fun _ => rfl
  | regs => exact s.withInbuf_getReg l
  | stack | running | fault | output | stream => rfl

theorem State.onlyChanges_withStream (s : State) (l : List StreamItem) :
    s.onlyChanges { s with stream := l } [.stream] := by
  intro p hp
  cases p with
  | stream => exact absurd (List.mem_singleton.2 rfl) hp
  | mem => exact fun _ => rfl
  | regs => exact s.withStream_getReg l
  | stack | running | fault | inbuf | output => rfl

/-- Rule R236: a debug command changes registers alone. -/
theorem State.onlyChanges_runCommand (s : State) (c : DebugCommand) : s.onlyChanges (s.runCommand c) [.regs] := by
  rcases s.runCommand_cases c with h | ⟨r, v, -, -, -, h⟩
  · rw [h]
    intro p _
    cases p <;> simp [State.same]
  · rw [h]
    exact s.onlyChanges_setReg _ _

/-! ## `out` -/

theorem exec_out_legal (h : a.legal .val = true) :
    exec (.out a) s = .next ((s.emit ((s.valueOf a).setWidth 8)).advance 1) := by
  rw [exec_out, afterOperands_legal (by simpa using h)]

/-- Settles O36: on a legal operand `out` emits the low byte of the value and advances past one operand. -/
theorem outRule : Obligations.OutRule := by
  refine ⟨⟨fun wa rest => decode_cons_eq_ok_iff.2 rfl, fun a =>
    raisesOperandFaults_of_exec fun s => exec_out s a⟩, fun a s ha => ?_⟩
  exact ⟨_, _, exec_out_legal ha, rfl, BitVec.toNat_setWidth _ _, State.advance_pc _ 1,
    State.onlyChanges_advance 1 (s.onlyChanges_emit _)⟩

/-! ## `in` that completes: from the Input Buffer, or from the stream -/

/-- A byte is zero-extended to a word of the same value (decision D20). -/
theorem byte_setWidth_toNat (b : Byte) : (b.setWidth 16).toNat = b.toNat := by
  rw [BitVec.toNat_setWidth, Nat.mod_eq_of_lt (Nat.lt_trans b.isLt (by decide))]

theorem exec_in_buffered {b : Byte} {rest : List Byte} (ha : a.legal .reg = true) (h : s.inbuf = b :: rest) :
    exec (.in_ a) s = .next (({ s with inbuf := rest }.setReg (regOf a) (b.setWidth 16)).advance 1) := by
  rw [exec_in, readInputByte_buffered h, afterOperands_legal (by simpa using ha)]

/-- Settles O37: with the operand legal and a byte in the buffer, `in` takes that byte into its register. -/
theorem inFromInputBuffer : Obligations.InFromInputBuffer := by
  refine ⟨⟨fun wa rest => decode_cons_eq_ok_iff.2 rfl, fun a =>
    raisesOperandFaults_of_exec fun s => exec_in s a⟩, fun a s b rest ha h => ?_⟩
  refine ⟨_, exec_in_buffered ha h, ?written, ?others, rfl, rfl, ?frame⟩
  case written => rw [State.advance_getReg, State.setReg_getReg_same, byte_setWidth_toNat]
  case others => exact fun r hr => State.setReg_getReg_other _ _ hr
  case frame =>
    exact State.onlyChanges_advance 1
      (State.onlyChanges_trans (s.onlyChanges_withInbuf rest) (State.onlyChanges_setReg _ (regOf a) _))

/-! ## Debug commands -/

theorem State.runCommand_set (s : State) (r : Fin 8) (v : Word) :
    s.runCommand (.set r.val v.toNat) = s.setReg r v := by
  have hrange : SetInRange r.val v.toNat := ⟨r.isLt, v.isLt⟩
  rw [State.runCommand, if_pos hrange, Fin.ofNat_val_eq_self, BitVec.ofNat_toNat, BitVec.setWidth_eq]

/-- A command that is no `set` in range changes nothing. -/
theorem State.runCommand_eq_self (s : State) {c : DebugCommand}
    (h : ∀ (r : Fin 8) (v : Word), c ≠ .set r.val v.toNat) : s.runCommand c = s := by
  rcases s.runCommand_cases c with hsame | ⟨r, v, rfl, hr, hv, -⟩
  · exact hsame
  · exact absurd (by rw [ofNat_toNat_of_lt hv]) (h ⟨r, hr⟩ (BitVec.ofNat 16 v))

theorem not_setInRange_iff {r v : Nat} : ¬ SetInRange r v ↔ 8 ≤ r ∨ 65536 ≤ v := by
  rw [SetInRange, Config.numRegs]
  omega

/-- Rule R240: which reports are of a no-op. -/
theorem debugReport_isNoOp_iff (fileExists : String → Bool) (s : State) (c : DebugCommand) :
    (debugReport fileExists s c).isNoOp = true ↔
      (∃ path, (c = .save path ∨ c = .exportTo path) ∧ fileExists path = true) ∨
      (∃ line, c = .malformed line) ∨ ∃ r v, c = .set r v ∧ (8 ≤ r ∨ 65536 ≤ v) := by
  cases c with
  | dump => simp [debugReport, DebugReport.isNoOp]
  | malformed line => simp [debugReport, DebugReport.isNoOp]
  | save path | exportTo path => cases hf : fileExists path <;> simp [debugReport, DebugReport.isNoOp, hf]
  | set r v =>
    have hreport : debugReport fileExists s (.set r v) = if SetInRange r v then .registerSet else .setOutOfRange := rfl
    by_cases h : SetInRange r v
    · have hin : ¬ (8 ≤ r ∨ 65536 ≤ v) := fun hout => not_setInRange_iff.2 hout h
      rw [hreport, if_pos h]
      simp [DebugReport.isNoOp, hin]
    · rw [hreport, if_neg h]
      simp [DebugReport.isNoOp, not_setInRange_iff.1 h]

/-- A command reported as a no-op is one. -/
theorem runCommand_of_isNoOp {fileExists : String → Bool} {c : DebugCommand}
    (h : (debugReport fileExists s c).isNoOp = true) : s.runCommand c = s := by
  rcases (debugReport_isNoOp_iff fileExists s c).1 h with ⟨path, rfl | rfl, -⟩ | ⟨line, rfl⟩ | ⟨r, v, rfl, hout⟩
  · rfl
  · rfl
  · rfl
  · rw [State.runCommand, if_neg (not_setInRange_iff.2 hout)]

/-- Settles O38: a `set` in range is a register write, and nothing else is an effect. -/
theorem debugCommandEffect : Obligations.DebugCommandEffect := by
  intro s c
  refine ⟨fun r v hc => ?_, s.runCommand_eq_self, fun fileExists =>
    ⟨debugReport_isNoOp_iff fileExists s c, runCommand_of_isNoOp⟩⟩
  rw [hc, State.runCommand_set]
  exact ⟨s.setReg_getReg_same r v, fun q hq => s.setReg_getReg_other v hq, rfl, s.onlyChanges_setReg r v⟩

/-- A debug command does not look at the stream. -/
theorem runCommand_withStream (s : State) (l : List StreamItem) (c : DebugCommand) :
    { s with stream := l }.runCommand c = { s.runCommand c with stream := l } := by
  cases c with
  | set r v =>
    by_cases h : SetInRange r v
    · simp only [State.runCommand, if_pos h]; rfl
    · simp only [State.runCommand, if_neg h]
  | dump | save _ | exportTo _ | malformed _ => rfl

/-! ## `in` from the interactive stream -/

/-- Settles O39: the stream holds a byte to deliver, or a command to run, or nothing yet. -/
theorem inFromInteractiveStream : Obligations.InFromInteractiveStream := by
  intro a s ha hin
  refine ⟨fun e rest hs he => ?_, fun c rest hs => ?_, exec_in_awaits ha hin⟩
  · refine ⟨_, exec_in_item ha hin hs he, ?written, ?others, rfl, rfl, ?frame⟩
    case written => rw [State.advance_getReg, State.setReg_getReg_same, byte_setWidth_toNat]
    case others => exact fun r hr => State.setReg_getReg_other _ _ hr
    case frame =>
      exact State.onlyChanges_advance 1
        (State.onlyChanges_trans (s.onlyChanges_withStream rest) (State.onlyChanges_setReg _ (regOf a) _))
  · refine ⟨_, exec_in_command ha hin hs, State.runCommand_stream _ c, State.runCommand_pc _ c, ?_, fun q => ?_⟩
    · exact State.onlyChanges_trans (s.onlyChanges_withStream rest) (State.onlyChanges_runCommand _ c)
    · rw [runCommand_withStream, State.withStream_getReg]

/-! ## A blocked `in` -/

/-- Fetch reads memory and the Program Counter alone. -/
theorem fetch_congr {t : State} (hmem : t.mem = s.mem) (hpc : t.pc = s.pc) : fetch t = fetch s := by
  rw [fetch, fetch, State.fetchWords, State.fetchWords, hmem, hpc]

theorem State.Waiting.step_eq (h : s.Waiting) : step s = .next s := by
  obtain ⟨hrun, ⟨r, hfetch⟩, hin, hs⟩ := h
  rw [step_of_fetch hrun hfetch, exec_in_awaits rfl hin hs]

/-- Rule R203: a further byte that ends no line leaves the adapter waiting for the end of the line. -/
theorem AwaitsDelivery.append_byte {l : List StreamItem} (h : AwaitsDelivery l) (hne : l ≠ []) (b : Byte) :
    AwaitsDelivery (l ++ [.byte b]) := by
  obtain ⟨e, line, he, rfl⟩ := h.resolve_left hne
  exact .inr ⟨e, line ++ [b], he, by rw [List.map_append, List.cons_append]; rfl⟩

/-- Rule R203: the byte that ends the line makes it a command. -/
theorem AwaitsDelivery.append_lineEnd {l : List StreamItem} (h : AwaitsDelivery l) (hne : l ≠ []) (b : Byte)
    (c : DebugCommand) : CommandAt (l ++ [.lineEnd b c]) c [] := by
  obtain ⟨e, line, he, rfl⟩ := h.resolve_left hne
  exact ⟨e, line, b, he, rfl⟩

/-- Settles O40: a delivery leaves the fetched `in`, so each case is that of the stream it makes. -/
theorem waitingChangesNothing : Obligations.WaitingChangesNothing := by
  intro s hwait
  have hstep := hwait.step_eq
  obtain ⟨hrun, ⟨r, hfetch⟩, hin, hs⟩ := hwait
  refine ⟨hstep, hrun, fun hnil e he q hq => ?byte, fun hnil e he => ?escape,
    fun hne b => ?more, fun hne b c => ?command⟩
  case byte =>
    have hs' : (s.deliver e).stream = e :: [] := by rw [State.deliver, hnil, List.nil_append]
    refine ⟨_, (step_of_fetch (s := s.deliver e) hrun hq).trans (exec_in_item rfl hin hs' he), ?_, rfl, rfl⟩
    rw [State.advance_getReg]
    exact (congrArg BitVec.toNat (State.setReg_getReg_same _ q _)).trans (byte_setWidth_toNat _)
  case escape => exact ⟨hrun, ⟨r, hfetch⟩, hin, .inr ⟨e, [], he, by rw [State.deliver, hnil]; rfl⟩⟩
  case more => exact ⟨hrun, ⟨r, hfetch⟩, hin, hs.append_byte hne b⟩
  case command =>
    have hcommand : CommandAt (s.deliver (.lineEnd b c)).stream c [] := hs.append_lineEnd hne b c
    have hrun' : step (s.deliver (.lineEnd b c)) = .next ({ s with stream := [] }.runCommand c) :=
      (step_of_fetch (s := s.deliver (.lineEnd b c)) hrun hfetch).trans (exec_in_command rfl hin hcommand)
    refine ⟨_, hrun', ⟨?_, ⟨r, ?_⟩, ?_, .inl ?_⟩, ?_, ?_, ?_, fun q => ?_⟩
    · rw [State.runCommand_running, hrun]
    · rw [fetch_congr (State.runCommand_mem _ c) (State.runCommand_pc _ c)]; exact hfetch
    · rw [State.runCommand_inbuf, hin]
    · exact State.runCommand_stream _ c
    · exact State.runCommand_stream _ c
    · exact State.runCommand_pc _ c
    · exact State.onlyChanges_trans (s.onlyChanges_withStream []) (State.onlyChanges_runCommand _ c)
    · rw [runCommand_withStream, State.withStream_getReg]

end Sys2Proof.Machine
end

section
/-! PROOFS. What the whole machine can change, read off the shapes of the effects (spec/10_state.md rules R22, R24, R26
and R29 to R32, spec/20_memory.md rule R66). -/

namespace Sys2Proof.Machine

variable {i : Instr} {s t : State} {a b : Operand}

/-! ## Registers -/

/-- A legal reg operand is a reference to the register it names. -/
theorem eq_reg_of_legal (h : a.legal .reg = true) : a = .reg (regOf a) := by
  cases a with
  | reg r => rfl
  | lit _ | invalid _ | absent => cases h

/-- Where a register that a reg operand `a` may write has changed, `a` names it. -/
theorem slots_of_setReg_changed {slots : List (SlotKind × Operand)} {r : Fin 8} {v : Word}
    (hslots : i.slots = (.reg, a) :: slots) (hlegal : ∀ p ∈ i.slots, p.2.legal p.1 = true)
    (hchanged : (s.setReg (regOf a) v).getReg r ≠ s.getReg r) : ∃ rest, i.slots = (.reg, .reg r) :: rest := by
  have ha := eq_reg_of_legal (hlegal (.reg, a) (by rw [hslots]; exact List.mem_cons_self))
  have hr : r = regOf a := by
    by_contra hne
    exact hchanged (State.setReg_getReg_other _ _ hne)
  exact ⟨slots, by rw [hslots, hr, ← ha]⟩

/-- Settles O49: besides the reg operand's register, a debug command's `set` is the one register write. -/
theorem registerWriters : Obligations.RegisterWriters := by
  intro i s t r hexec hchanged
  rcases exec_cases hexec with ⟨f, rfl⟩ | ⟨hlegal, heffect⟩
  · exact absurd (s.takeFault_getReg f r) hchanged
  cases heffect.shape with
  | compute a slots v hslots ht =>
    subst ht
    exact .inl (slots_of_setReg_changed hslots hlegal hchanged)
  | pop a v rest hs ht =>
    subst ht
    exact .inl (slots_of_setReg_changed (s := { s with stack := rest }) rfl hlegal hchanged)
  | inBuffered a v rest hin ht =>
    subst ht
    exact .inl (slots_of_setReg_changed (s := { s with inbuf := rest }) rfl hlegal hchanged)
  | inDelivered a e rest hin hs he ht =>
    subst ht
    exact .inl (slots_of_setReg_changed (s := { s with stream := rest }) rfl hlegal hchanged)
  | inCommand a c rest hin hs ht =>
    subst ht
    rcases State.runCommand_cases { s with stream := rest } c with hsame | ⟨q, v, rfl, hq, hv, hset⟩
    · rw [hsame] at hchanged
      exact absurd rfl hchanged
    · rw [hset] at hchanged ⊢
      have hr : r = Fin.ofNat 8 q := by
        by_contra hne
        exact hchanged (State.setReg_getReg_other _ _ hne)
      have hqr : r.val = q := by rw [hr, Fin.val_ofNat, Nat.mod_eq_of_lt hq]
      have ha := eq_reg_of_legal (hlegal (.reg, a) List.mem_cons_self)
      exact .inr ⟨regOf a, v, rest, by rw [← ha], hin, by rwa [hqr], hv, by rw [hr, State.setReg_getReg_same]⟩
  | goto | stop | push | call | ret | wmem | out | inWaits => exact absurd (by simp [*]) hchanged

/-! ## Memory -/

/-- Settles O50: only `wmem` writes, and it writes one word. -/
theorem memoryWriters : Obligations.MemoryWriters := by
  intro i s t q hwf hexec hchanged
  rcases exec_shape hexec with ⟨f, rfl⟩ | hshape
  · exact absurd rfl hchanged
  rcases hshape.mem_eq with hmem | ⟨a, b, rfl, haddr, hmem⟩
  · exact absurd (by rw [hmem]) hchanged
  · refine ⟨a, b, rfl, haddr, ?_⟩
    by_contra hout
    rw [not_or] at hout
    rw [hmem] at hchanged
    exact hchanged (Memory.readByte_writeWord_other _ hwf.1 hout.1 hout.2)

/-! ## The stack -/

/-- Settles O51: the four shapes that have a stack of their own. -/
theorem stackDiscipline : Obligations.StackDiscipline := by
  intro i s t hexec hchanged
  rcases exec_shape hexec with ⟨f, rfl⟩ | hshape
  · exact absurd rfl hchanged
  cases hshape with
  | push a ht => exact .inl ⟨a, rfl, by rw [ht]; rfl⟩
  | call a ht => exact .inr (.inl ⟨a, rfl, by rw [ht]; rfl⟩)
  | pop a v rest hs ht =>
    refine .inr (.inr (.inl ⟨a, rfl, ?_⟩))
    rw [hs, ht, State.advance_getReg, State.setReg_getReg_same]
    rfl
  | ret v rest hs ht => exact .inr (.inr (.inr ⟨rfl, by rw [hs, ht]; rfl⟩))
  | compute | goto | stop | wmem | out | inBuffered | inDelivered | inCommand | inWaits =>
    exact absurd (by simp [*]) hchanged

/-! ## Input and output -/

/-- Settles O52: the shapes of `in`, which each take one thing, and that of `out`. -/
theorem inputOutputDiscipline : Obligations.InputOutputDiscipline := by
  intro i s t hexec
  rcases exec_shape hexec with ⟨f, rfl⟩ | hshape
  · exact ⟨absurd rfl, absurd rfl, absurd rfl⟩
  cases hshape with
  | inBuffered a v rest hin ht =>
    subst ht
    exact ⟨fun _ => ⟨a, v, rfl, hin, rfl⟩, absurd rfl, absurd rfl⟩
  | inDelivered a e rest hin hs he ht =>
    subst ht
    exact ⟨absurd rfl, fun _ => ⟨a, rfl, hin, .inl ⟨e, he, hs⟩⟩, absurd rfl⟩
  | inCommand a c rest hin hs ht =>
    subst ht
    exact ⟨absurd (State.runCommand_inbuf _ c),
      fun _ => ⟨a, rfl, hin, .inr ⟨c, by rwa [State.runCommand_stream]⟩⟩, absurd (State.runCommand_output _ c)⟩
  | out a ht =>
    subst ht
    exact ⟨absurd rfl, absurd rfl, fun _ => ⟨a, _, rfl, rfl⟩⟩
  | compute | goto | stop | push | pop | call | ret | wmem | inWaits =>
    exact ⟨absurd (by simp [*]), absurd (by simp [*]), absurd (by simp [*])⟩

/-! ## The Program Counter -/

/-- Rule R24: past the words of an instruction in the Address Space the Program Counter does not wrap around. -/
theorem advance_pc_toNat {n : Nat} (hpc : s.pc.toNat < 32768) (hn : n ≤ 3) :
    (s.pc + BitVec.ofNat 16 (1 + n)).toNat = s.pc.toNat + (1 + n) := by
  rw [BitVec.toNat_add, ofNat_toNat_of_lt (by omega)]
  omega

theorem isZero_iff_eq_zero {v : Word} : isZero v = true ↔ v = 0 :=
  isZero_iff.trans (BitVec.toNat_inj (x := v) (y := 0))

/-- Settles O53: the Program Counter of each effect; where a fault is taken it is recorded. -/
theorem programCounterChange : Obligations.ProgramCounterChange := by
  intro i s t hpc hnone hexec hnofault
  rcases exec_cases hexec with ⟨f, rfl⟩ | ⟨-, heffect⟩
  · cases hnofault
  cases i with
  | halt => trivial
  | jmp a | call a => exact congrArg State.pc heffect
  | jt a b =>
    by_cases hz : s.valueOf a = 0
    · refine (if_pos hz).mpr ?_
      rw [heffect, if_pos (isZero_iff_eq_zero.2 hz)]
      exact advance_pc_toNat hpc (by decide)
    · refine (if_neg hz).mpr ?_
      rw [heffect, if_neg (mt isZero_iff_eq_zero.1 hz), State.setPc_pc]
  | jf a b =>
    by_cases hz : s.valueOf a = 0
    · refine (if_pos hz).mpr ?_
      rw [heffect, if_pos (isZero_iff_eq_zero.2 hz), State.setPc_pc]
    · refine (if_neg hz).mpr ?_
      rw [heffect, if_neg (mt isZero_iff_eq_zero.1 hz)]
      exact advance_pc_toNat hpc (by decide)
  | ret =>
    intro v rest hs
    rcases heffect with ⟨hempty, -⟩ | ⟨w, rest', hs', rfl⟩
    · rw [hempty] at hs
      cases hs
    · rw [hs, List.cons.injEq] at hs'
      exact hs'.1.symm
  | in_ a =>
    rcases heffect with ⟨v, rest, -, rfl⟩ | ⟨e, rest, -, -, -, rfl⟩ | ⟨c, rest, hin, -, rfl⟩ | ⟨hin, -, rfl⟩
    · exact .inl (advance_pc_toNat hpc (by decide))
    · exact .inl (advance_pc_toNat hpc (by decide))
    · exact .inr ⟨State.runCommand_pc _ c, hin⟩
    · exact .inr ⟨rfl, hin⟩
  | pop a =>
    obtain ⟨v, rest, -, rfl⟩ := heffect
    exact advance_pc_toNat hpc (by decide)
  | mod a b c | rmem a b | wmem a b =>
    obtain ⟨-, rfl⟩ := heffect
    exact advance_pc_toNat hpc (by decide)
  | noop | push a | out a | set a b | not a b | eq a b c | gt a b c | add a b c | mult a b c | and a b c | or a b c =>
    subst heffect
    exact advance_pc_toNat hpc (by decide)

end Sys2Proof.Machine
end

section
/-! PROOFS. Consequences of the instruction rules: the range of what is computed, and programs of two instructions
(spec/45_arith_logic.md rules R170 and R178, spec/44_control.md rule R157, spec/46_memory_ops.md, spec/20_memory.md
rule R62). -/

namespace Sys2Proof.Machine

variable {i : Instr} {s t u : State} {a b c : Operand}

/-! ## The range of a computed word -/

theorem CompletesWriting.getReg_toNat {d : Fin 8} {v n : Nat} {parts : List Part}
    (h : CompletesWriting i s d v n parts) (hexec : exec i s = .next t) : (t.getReg d).toNat = v := by
  obtain ⟨u, hu, hvalue, -⟩ := h
  rw [hu, Host.Outcome.next.injEq] at hexec
  rw [← hexec, hvalue]

/-- The value that an instruction of format RVV with a rule leaves in its register. -/
theorem RuleRVV.getReg_toNat {op : Nat} {mk : Operand → Operand → Operand → Instr} {f : Nat → Nat → Nat}
    (h : RuleRVV op mk f) (hslots : (mk a b c).slots = [(.reg, a), (.val, b), (.val, c)])
    (hwf : (mk a b c).wf = true) (hexec : exec (mk a b c) s = .next t) :
    (t.getReg (regOf a)).toNat = f (s.valueOf b).toNat (s.valueOf c).toNat := by
  simp only [wf_iff, hslots, List.forall_mem_cons] at hwf
  obtain ⟨ha, hb, hc, -⟩ := hwf
  exact ((h.2 a b c).2 s ha hb hc).getReg_toNat hexec

/-- A comparison's result is 0 or 1. -/
theorem eq_zero_or_one_of_toNat {w : Word} {p : Prop} [Decidable p] (h : w.toNat = if p then 1 else 0) :
    w = 0 ∨ w = 1 := by
  split at h
  · exact .inr (BitVec.eq_of_toNat_eq h)
  · exact .inl (BitVec.eq_of_toNat_eq h)

/-- Settles O54: each instruction's rule gives the value, and the value's range is arithmetic. -/
theorem computedRange : Obligations.ComputedRange := by
  intro i s t hwf hexec
  cases i with
  | eq a b c => exact eq_zero_or_one_of_toNat (eqRule.getReg_toNat rfl hwf hexec)
  | gt a b c => exact eq_zero_or_one_of_toNat (gtRule.getReg_toNat rfl hwf hexec)
  | add a b c => exact (addRule.getReg_toNat rfl hwf hexec).trans_lt (Nat.mod_lt _ (by decide))
  | mult a b c => exact (multRule.getReg_toNat rfl hwf hexec).trans_lt (Nat.mod_lt _ (by decide))
  | and a b c =>
    have hvalue := andRule.1.getReg_toNat rfl hwf hexec
    exact ⟨hvalue.trans_le Nat.and_le_left, hvalue.trans_le Nat.and_le_right⟩
  | or a b c =>
    have hvalue := orRule.1.getReg_toNat rfl hwf hexec
    exact ⟨Nat.left_le_or.trans_eq hvalue.symm, Nat.right_le_or.trans_eq hvalue.symm, fun hb hc =>
      hvalue.trans_lt (Nat.or_lt_two_pow (n := 15) hb hc)⟩
  | mod a b c =>
    intro hzero
    simp only [wf_iff, Instr.slots, List.forall_mem_cons] at hwf
    obtain ⟨ha, hb, hc, -⟩ := hwf
    have hvalue := (((modRule.2 a b c).2 s ha hb hc).2 hzero).getReg_toNat hexec
    exact ⟨hvalue.trans_lt (Nat.mod_lt _ (Nat.pos_of_ne_zero hzero)), hvalue.trans_le (Nat.mod_le _ _)⟩
  | not a b =>
    simp only [wf_iff, Instr.slots, List.forall_mem_cons] at hwf
    obtain ⟨ha, hb, -⟩ := hwf
    have hvalue := ((notRule.1.2 a b).2 s ha hb).getReg_toNat hexec
    exact hvalue.trans_lt (Nat.lt_of_le_of_lt (Nat.sub_le 32767 _) (by decide))
  | halt | set | push | pop | jmp | jt | jf | rmem | wmem | call | ret | out | in_ | noop => trivial

/-! ## Programs of two instructions -/

/-- `not` of a register leaves 32767 less the low 15 bits of it. -/
theorem getReg_of_exec_not {d r : Fin 8} (h : exec (.not (.reg d) (.reg r)) s = .next t) :
    (t.getReg d).toNat = 32767 - (s.getReg r).toNat % 32768 :=
  ((notRule.1.2 (.reg d) (.reg r)).2 s rfl rfl).getReg_toNat h

/-- Settles O55: 32767 less a number below 32768 is one again, and less that is the number. -/
theorem notTwiceRestores : Obligations.NotTwiceRestores := by
  intro s t u d e r hr ht hu
  have hfirst := getReg_of_exec_not ht
  have hsecond := getReg_of_exec_not hu
  exact BitVec.eq_of_toNat_eq (by omega)

/-- Settles O56: the `ret` finds the word that the `call` pushed on top of the old stack. -/
theorem callThenRetResumes : Obligations.CallThenRetResumes := by
  intro a s t u v ha hcall hstack hret
  rw [exec_call_legal ha, Host.Outcome.next.injEq] at hcall
  have hpushed : u.stack = (s.pc + 2) :: s.stack := by rw [hstack, ← hcall]; rfl
  rw [exec_ret_cons hpushed, Host.Outcome.next.injEq] at hret
  subst hret
  exact ⟨rfl, rfl, rfl⟩

/-- Settles O57: the address is the same after the store, and the cell read is the one written. -/
theorem loadAfterStore : Obligations.LoadAfterStore := by
  intro a b d s t u hwf ha hb haddr hstore hload
  rw [exec_wmem_inBounds ha hb haddr, Host.Outcome.next.injEq] at hstore
  have hsame : t.valueOf a = s.valueOf a := by rw [← hstore]; cases a <;> rfl
  rw [exec_rmem_inBounds rfl ha (by rw [hsame]; exact haddr), Host.Outcome.next.injEq] at hload
  rw [← hload, State.advance_getReg, hsame, ← hstore, State.advance_mem]
  exact (State.setReg_getReg_same _ d _).trans (by rw [Memory.readWord_writeWord _ _ hwf.1, if_pos rfl])

/-- Settles O58: the next fetch reads memory where the store has just written. -/
theorem storeSeenByNextFetch : Obligations.StoreSeenByNextFetch := by
  intro a b s t hwf hrun hpc hfetch ha hb haddr hstep
  rw [step_of_fetch hrun hfetch, exec_wmem_inBounds ha hb (by omega), Host.Outcome.next.injEq] at hstep
  have hnext : t.pc.toNat = (s.valueOf a).toNat := by
    rw [← hstep, State.advance_pc, advance_pc_toNat (s := s) (by omega) (by decide), haddr]
  refine ⟨by rw [← hstep]; exact hrun, ?_⟩
  rw [fetchWords_eq_cons t (by omega), List.head?_cons, hnext, ← hstep, State.advance_mem,
    Memory.readWord_writeWord _ _ hwf.1, if_pos rfl]

end Sys2Proof.Machine
end
